-- ==== Sys2Proof/Word.lean ====
section
/-! DEFINITION. The word types of the block: the byte, the seven-bit payload, the accumulator and the byte index. -/

namespace Sys2Proof

/-- A byte of the buffer, `b[7:0]` (00 R7). -/
abbrev Byte := BitVec 8

/-- The payload of a leading byte, `b[6:0]` (30 R61). -/
abbrev Payload := BitVec 7

/-- The accumulator's 64 bits, with no sign of their own (10 R20). -/
abbrev Acc := BitVec 64

/-- The byte index's 4 bits (10 R21). -/
abbrev Index := BitVec 4

end Sys2Proof
end

