-- ==== Sys2Proof/Config.lean ====
section
/-! DEFINITION. The numbers the spec fixes (00 R5), the block's names (00 R1), and the open parameter BASE (00 R6). -/

namespace Sys2Proof

/-- The identity string and its two aliases (00 R1). -/
def Config.identity : String := "varint_decoder"
def Config.aliases : List String := ["variable_length_int_unpacker", "vint_barrel_shifter"]

/-- `MAX_BYTES` (00 R5). -/
@[simp] abbrev Config.maxBytes : Nat := 9

/-- `LEAD_BYTES`: the indices 0 to 7 hold leading bytes (00 R5). -/
@[simp] abbrev Config.leadBytes : Nat := 8

/-- `LEAD_SHIFT`, equal to `LEAD_PAYLOAD_BITS` (00 R5). -/
@[simp] abbrev Config.leadShift : Nat := 7

/-- `LAST_SHIFT`, equal to `LAST_PAYLOAD_BITS` (00 R5). -/
@[simp] abbrev Config.lastShift : Nat := 8

/-- `PAYLOAD_MASK` (00 R5). -/
@[simp] abbrev Config.payloadMask : Byte := 0x7F#8

/-- `CONT_MASK` (00 R5). -/
@[simp] abbrev Config.contMask : Byte := 0x80#8

/-- `BASE`, where the buffer lies in the host's memory: the platform's, OPEN (00 R6, 20 R48). No rule of the
block reads it. -/
opaque Config.base : Nat

end Sys2Proof
end

