-- ==== Sys2Proof/Syntax.lean ====
section
/-! DEFINITION. The instructions: the three byte classes (30 R64) and the nine length forms of DECODE (30 R66), one
constructor per row of the opcode table. -/

namespace Sys2Proof

inductive Instr where
  /-- A continuation byte `1ppppppp`, legal at index 0 to 7 (R64, R103). -/
  | cont (p : Payload)
  /-- A terminating byte `0ppppppp`, legal at index 0 to 7 (R64, R104). -/
  | term (p : Payload)
  /-- The ninth byte `dddddddd`, legal at index 8 (R64, R105). -/
  | last (d : Byte)
  /-- DECODE of a one-byte varint (R66, R80); in this and the next eight, the payloads of bytes 0, 1, … in order. -/
  | v1 (a : Payload)
  | v2 (a b : Payload)
  | v3 (a b c : Payload)
  | v4 (a b c d : Payload)
  | v5 (a b c d e : Payload)
  | v6 (a b c d e f : Payload)
  | v7 (a b c d e f g : Payload)
  | v8 (a b c d e f g h : Payload)
  /-- DECODE of a nine-byte varint, whose ninth byte gives eight bits (R66, R80). -/
  | v9 (a b c d e f g h : Payload) (i : Byte)
  deriving DecidableEq, Repr

end Sys2Proof
end

