-- ==== Sys2Proof/WellFormed.lean ====
section
/-! DEFINITION. Where an instruction is legal (the index is the decoding mode, 30 R63) and which listings are
well formed (30 R75). Payload widths are carried by the operand types. -/

namespace Sys2Proof

/-- `CONT` and `TERM` are legal at index 0 to 7, `LAST` at 8 only (R64, R75); a length form begins the buffer (R60). -/
def Instr.legalAt (idx : Nat) : Instr → Bool
  | .cont _ => decide (idx ≤ 7)
  | .term _ => decide (idx ≤ 7)
  | .last _ => decide (idx = 8)
  | .v1 .. => decide (idx = 0)
  | .v2 .. => decide (idx = 0)
  | .v3 .. => decide (idx = 0)
  | .v4 .. => decide (idx = 0)
  | .v5 .. => decide (idx = 0)
  | .v6 .. => decide (idx = 0)
  | .v7 .. => decide (idx = 0)
  | .v8 .. => decide (idx = 0)
  | .v9 .. => decide (idx = 0)

/-- A byte class, as against a length form of DECODE (the table's two levels, R64 and R66). -/
def Instr.isByteClass : Instr → Bool
  | .cont _ => true
  | .term _ => true
  | .last _ => true
  | .v1 .. => false
  | .v2 .. => false
  | .v3 .. => false
  | .v4 .. => false
  | .v5 .. => false
  | .v6 .. => false
  | .v7 .. => false
  | .v8 .. => false
  | .v9 .. => false

/-- A listing read from index `idx` on: `CONT` lines, then one `TERM` or, at index 8, one `LAST`, each line legal at its
index (R75). DESIGN CHOICE (log entry 18): eight `CONT` lines and a `TERM` line are ill formed. -/
def listingWellFormedFrom (idx : Nat) : List Instr → Bool
  | [] => false
  | i :: rest =>
    match i with
    | .cont _ => i.legalAt idx && listingWellFormedFrom (idx + 1) rest
    | _ => i.isByteClass && i.legalAt idx && rest.isEmpty

/-- A well-formed listing (R75): `CONT` lines and one `TERM` line, or eight `CONT` lines and one `LAST` line. R75 allows
zero to eight `CONT` lines before a `TERM` and makes `TERM` legal at index 0 to 7 only. DESIGN CHOICE (log entry 18): the
legality decides, so at most seven `CONT` lines stand before a `TERM`. -/
def listingWellFormed (l : List Instr) : Bool :=
  listingWellFormedFrom 0 l

end Sys2Proof
end

