-- ==== Sys2Proof/Decode.lean ====
section
/-! DEFINITION. The decoder (a byte at an index, 30 R61 to R64; the length form a buffer begins with, 30 R65 to R67),
the encoder written from the same tables, and the listing's assembler (30 R75). -/

namespace Sys2Proof

/-- The continuation bit, `b[7]` (R61). -/
def contBit (b : Byte) : Bool := b.getLsbD 7

/-- The low seven bits, `b[6:0]` (R61). -/
def payload (b : Byte) : Payload := b.setWidth 7

/-- The byte `1ppppppp` (R64). -/
def contByte (p : Payload) : Byte := 1#1 ++ p

/-- The byte `0ppppppp` (R64). -/
def termByte (p : Payload) : Byte := 0#1 ++ p

/-- Why the decoder gives no instruction. -/
inductive Reject where
  /-- The bytes end before the varint does (R73): the block answers this with `TruncatedInput`, never with a stop. -/
  | truncated
  /-- There is no byte format at an index of 9 or above (R63). -/
  | noFormat
  deriving DecidableEq, Repr

/-- The byte class of byte `b` at index `idx` (R63, R64). -/
def decodeByte (idx : Nat) (b : Byte) : Except Reject Instr :=
  if idx < Config.leadBytes then
    if contBit b then .ok (.cont (payload b)) else .ok (.term (payload b))
  else if idx = Config.leadBytes then .ok (.last b)
  else .error .noFormat

/-- The length form the bytes begin with, and the bytes after it (R65, R66). -/
def decodeVarint : List Byte → Except Reject (Instr × List Byte)
  | [] => .error .truncated
  | a :: ra =>
    if !contBit a then .ok (.v1 (payload a), ra) else
    match ra with
    | [] => .error .truncated
    | b :: rb =>
      if !contBit b then .ok (.v2 (payload a) (payload b), rb) else
      match rb with
      | [] => .error .truncated
      | c :: rc =>
        if !contBit c then .ok (.v3 (payload a) (payload b) (payload c), rc) else
        match rc with
        | [] => .error .truncated
        | d :: rd =>
          if !contBit d then .ok (.v4 (payload a) (payload b) (payload c) (payload d), rd) else
          match rd with
          | [] => .error .truncated
          | e :: re =>
            if !contBit e then
              .ok (.v5 (payload a) (payload b) (payload c) (payload d) (payload e), re)
            else
            match re with
            | [] => .error .truncated
            | f :: rf =>
              if !contBit f then
                .ok (.v6 (payload a) (payload b) (payload c) (payload d) (payload e) (payload f), rf)
              else
              match rf with
              | [] => .error .truncated
              | g :: rg =>
                if !contBit g then
                  .ok (.v7 (payload a) (payload b) (payload c) (payload d) (payload e) (payload f)
                    (payload g), rg)
                else
                match rg with
                | [] => .error .truncated
                | h :: rh =>
                  if !contBit h then
                    .ok (.v8 (payload a) (payload b) (payload c) (payload d) (payload e) (payload f)
                      (payload g) (payload h), rh)
                  else
                  match rh with
                  | [] => .error .truncated
                  | i :: ri =>
                    .ok (.v9 (payload a) (payload b) (payload c) (payload d) (payload e) (payload f)
                      (payload g) (payload h) i, ri)

/-- The bytes of an instruction (R64, R66, R75). -/
def encode : Instr → List Byte
  | .cont p => [contByte p]
  | .term p => [termByte p]
  | .last d => [d]
  | .v1 a => [termByte a]
  | .v2 a b => [contByte a, termByte b]
  | .v3 a b c => [contByte a, contByte b, termByte c]
  | .v4 a b c d => [contByte a, contByte b, contByte c, termByte d]
  | .v5 a b c d e => [contByte a, contByte b, contByte c, contByte d, termByte e]
  | .v6 a b c d e f => [contByte a, contByte b, contByte c, contByte d, contByte e, termByte f]
  | .v7 a b c d e f g =>
    [contByte a, contByte b, contByte c, contByte d, contByte e, contByte f, termByte g]
  | .v8 a b c d e f g h =>
    [contByte a, contByte b, contByte c, contByte d, contByte e, contByte f, contByte g, termByte h]
  | .v9 a b c d e f g h i =>
    [contByte a, contByte b, contByte c, contByte d, contByte e, contByte f, contByte g, contByte h, i]

/-- How many bytes an instruction takes: the table's `width_bits` over 8. -/
def Instr.size : Instr → Nat
  | .cont _ => 1
  | .term _ => 1
  | .last _ => 1
  | .v1 .. => 1
  | .v2 .. => 2
  | .v3 .. => 3
  | .v4 .. => 4
  | .v5 .. => 5
  | .v6 .. => 6
  | .v7 .. => 7
  | .v8 .. => 8
  | .v9 .. => 9

/-- The bytes a listing assembles to (R75). -/
def assemble (l : List Instr) : List Byte := l.flatMap encode

/-- The listing of the varint a buffer begins with, from index `idx` on: R64 read backwards (R75). -/
def disassembleFrom (idx : Nat) : List Byte → Except Reject (List Instr)
  | [] => .error .truncated
  | b :: bs =>
    match decodeByte idx b with
    | .error r => .error r
    | .ok (.cont p) =>
      match disassembleFrom (idx + 1) bs with
      | .error r => .error r
      | .ok l => .ok (.cont p :: l)
    | .ok i => .ok [i]

/-- The `k` bytes of a number of `8k` bits, the most significant first: `buf[0]` is the most significant byte (the
opcode table's own `bit_numbering`, and R66). -/
def bytesOfWord : Nat → Nat → List Byte
  | 0, _ => []
  | k + 1, w => BitVec.ofNat 8 (w >>> (8 * k)) :: bytesOfWord k w

/-- The instruction the decoder reads from `nbits` bits numbered as the opcode table numbers them. DESIGN CHOICE (log
entry 12): a word of 8 bits is read as a byte at index 0, where `CONT` and `TERM` are; the rows `LAST` and `V1` have
the same bits at index 8 and at the level of DECODE. -/
def decodeTableWord (nbits w : Nat) : Option Instr :=
  if nbits = 8 then (decodeByte 0 (BitVec.ofNat 8 w)).toOption
  else ((decodeVarint (bytesOfWord (nbits / 8) w)).map Prod.fst).toOption

end Sys2Proof
end

