-- ==== Sys2Proof/Machine/State.lean ====
section
/-! DEFINITION. The block's state, which is the three registers of a decode (10 R20 to R22); the parameters of a decode,
which are arguments of its step relation (10 R29); and the state of the machine behind the host's interface, which carries
both and what the host is about to do (43 R140, R143, R148), all as plain data. -/

namespace Sys2Proof.Machine

/-- The phase `ph` (10 R22). -/
inductive Phase where
  /-- No decode has been started since reset. -/
  | idle
  /-- A decode is running and wants its next byte. -/
  | busy
  /-- The last decode ended with `OK`. -/
  | done
  /-- The last decode ended with `TruncatedInput`. -/
  | err
  deriving DecidableEq, Repr

/-- Where the running decode takes its bytes from: the buffer (20 R41), or the input stream of profile S (43 R150).
DESIGN CHOICE (log entry 2): the model's own field. -/
inductive Source where
  | buffer
  | stream
  deriving DecidableEq, Repr

/-- What the host hands over for one decode: the bytes it supplies and the length it states (43 R140, R142). -/
structure Request where
  bytes : List Byte
  len : Nat
  deriving DecidableEq, Repr

/-- The inputs of profile S sampled at one rising edge of `clk` (43 R148). -/
structure Pins where
  rst : Bool
  start : Bool
  inValid : Bool
  inEnd : Bool
  inByte : Byte
  deriving DecidableEq, Repr

/-- One move of the host. -/
inductive HostMove where
  /-- The transaction: hand over a buffer and have the whole operation DECODE done (43 R140). -/
  | decode (r : Request)
  /-- Hand over a buffer and cause `START`; the byte steps follow (41 R100, R101). -/
  | start (r : Request)
  /-- One `clk` edge of profile S (43 R148). -/
  | edge (p : Pins)
  deriving DecidableEq, Repr

/-- The state of the block, whole: what the step relation of a decode steps (10 R20 to R22, R29). -/
structure Block where
  /-- The phase (10 R22). -/
  ph : Phase
  /-- The accumulator (10 R20). -/
  acc : Acc
  /-- The byte index (10 R21). -/
  idx : Index
  deriving DecidableEq, Repr

/-- The parameters of a decode: arguments of the step relation, no state of the block (10 R29). -/
structure Buffer where
  /-- The buffer's bytes by index, in canonical form (20 R40). -/
  mem : List Host.Cell
  /-- The length of the buffer as the host states it. -/
  len : Nat
  deriving DecidableEq, Repr

/-- The machine behind the host's interface: the block, and on the host's side what it hands to the block's steps, since
the interface gives `step` no argument but this (log entry 1). -/
structure State extends Block, Buffer where
  /-- The source of the running decode's bytes (the model's own, log entry 2). -/
  src : Source
  /-- The host's moves still to come, oldest first (the model's own, log entry 2). -/
  host : List HostMove
  deriving DecidableEq, Repr

/-- Why the machine stops with a fault. -/
inductive Fault where
  /-- Raised by a byte step in `BUSY` at an index of 9 to 15, from the buffer or from the stream: the spec's step
  function is defined for an index of 0 to 8 (41 R100, R102) and no run reaches another (10 R30). Safe. -/
  | indexOutOfRange
  deriving DecidableEq, Repr

/-- Why an instruction is refused. -/
inductive Refusal where
  /-- Raised by no arm of `exec` at present: every instruction has its meaning. Safe. -/
  | notModelled (mnemonic : String)
  /-- Raised by `CONT` and `TERM` in `BUSY` at an index of 8 or above, and by `LAST` in `BUSY` at an index other than
  8: no such encoding exists there (30 R63, R64), and no fetch yields one. Safe. -/
  | wrongIndex
  /-- Raised by a fetch at an index below `len` at which the host supplied no byte: the host stated a `len` larger than
  its buffer, and the spec gives a model no move for that (43 R142, 93 U6 "refuse"). Safe. -/
  | byteNotSupplied
  deriving DecidableEq, Repr

/-- The machine right after reset: `(IDLE, 0, 0)` (10 R31, 70 R182); the host has handed over nothing yet (DESIGN
CHOICE for `src`, `mem`, `len` and `host`, log entry 3). -/
def State.reset : State where
  ph := .idle
  acc := 0
  idx := 0
  src := .buffer
  mem := []
  len := 0
  host := []

end Sys2Proof.Machine
end

