-- ==== Sys2Proof/Machine/Ops.lean ====
section
/-! DEFINITION. The named operations over the buffer and the registers: `MemRead` (20 R41), handing a buffer over
(43 R140), `START` (41 R101), reset (70 R182), and taking the one exception (41 R106, 60 R166). What the block does is said
of `Block`; `State.lift` carries it to the whole machine. -/

namespace Sys2Proof.Machine

/-- What an unlisted address of the buffer reads as: no value, since the host supplied no byte there (log entry 3). -/
def Memory.unlisted : Option Byte := none

/-- The byte the host supplied at address `a`. -/
def Memory.read : List Host.Cell → Nat → Option Byte
  | [], _ => Memory.unlisted
  | c :: m, a => if c.1 = a then some c.2 else Memory.read m a

/-- Addresses strictly rise. -/
def Memory.rising : List Host.Cell → Bool
  | [] => true
  | c :: m => m.all (fun d => decide (c.1 < d.1)) && Memory.rising m

/-- The canonical form: addresses strictly rise, and no entry equals what an unlisted address reads as. -/
def Memory.wf (m : List Host.Cell) : Bool :=
  Memory.rising m && m.all (fun c => decide (some c.2 ≠ Memory.unlisted))

/-- A buffer laid out from address `a` on, in the order the host supplies it (00 R7, 20 R40). -/
def Memory.ofBytesFrom (a : Nat) : List Byte → List Host.Cell
  | [] => []
  | b :: bs => (a, b) :: Memory.ofBytesFrom (a + 1) bs

/-- The buffer the host supplies, byte 0 at address 0 (20 R40). -/
def Memory.ofBytes (bs : List Byte) : List Host.Cell := Memory.ofBytesFrom 0 bs

/-- Where byte `i` lies in the host's memory: `BASE + i` (20 R48). The block itself sees the index only. -/
def hostAddress (i : Nat) : Nat := Config.base + i

/-- The answer to `MemRead(i, 1)`. -/
inductive ReadAnswer where
  /-- The byte `buf[i]`. -/
  | byte (b : Byte)
  /-- There is no byte at `i`: `i >= len` (R41). -/
  | noByte
  /-- `i < len`, but the host supplied no byte there (93 U6). -/
  | notSupplied
  deriving DecidableEq, Repr

/-- `MemRead(i, 1)`: the bounds test comes first; the buffer, an argument, gives the answer (20 R41, 10 R29). -/
def memRead (buf : Buffer) (i : Nat) : ReadAnswer :=
  if i < buf.len then
    match Memory.read buf.mem i with
    | some b => .byte b
    | none => .notSupplied
  else .noByte

/-- Write the three registers of a decode. -/
def State.setRegs (s : State) (ph : Phase) (acc : Acc) (idx : Index) : State :=
  { s with ph := ph, acc := acc, idx := idx }

/-- The host hands over a buffer for the next decode (43 R140, 20 R53). -/
def State.handOver (s : State) (r : Request) : State :=
  { s with src := .buffer, mem := Memory.ofBytes r.bytes, len := r.len }

/-- The host's moves still to come become `l`. -/
def State.setHost (s : State) (l : List HostMove) : State :=
  { s with host := l }

/-- What the block does, as a step of the machine: the rest of the state stays. -/
def State.lift (s : State) : Host.Outcome Block Fault Refusal → Host.Outcome State Fault Refusal
  | .next b => .next { s with toBlock := b }
  | .fault f => .fault f
  | .refused r => .refused r

/-- The block after `START`: `(BUSY, 0, 0)`, whatever the registers held (41 R101). -/
def Block.started : Block where
  ph := .busy
  acc := 0
  idx := 0

/-- The block after `TruncatedInput`: `(ERR, 0, 0)` (41 R106, 60 R166). -/
def Block.truncated : Block where
  ph := .err
  acc := 0
  idx := 0

/-- The block after reset of profile S: `(IDLE, 0, 0)` (70 R182). -/
def Block.afterReset : Block where
  ph := .idle
  acc := 0
  idx := 0

/-- `START`, on bytes from `src` (41 R101). -/
def State.startDecode (s : State) (src : Source) : State :=
  { s with toBlock := Block.started, src := src }

/-- Taking `TruncatedInput`: nothing saved, no handler (41 R106, 60 R166). There is no return from it: `ERR` is left by
`START` or reset only (60 R168). -/
def State.raiseTruncated (s : State) : State :=
  { s with toBlock := Block.truncated }

/-- Reset of profile S (70 R182). -/
def State.resetRegs (s : State) : State :=
  { s with toBlock := Block.afterReset }

end Sys2Proof.Machine
end

