-- ==== Sys2Proof/Machine/Operands.lean ====
section
/-! DEFINITION. How a byte's payload enters the accumulator (40 R80, R82), and the signed reading of it (30 R69). -/

namespace Sys2Proof.Machine

/-- A leading byte's payload: `(acc << 7) + zext_64(p)` (R80 steps 2a, 2b). -/
def pushLead (acc : Acc) (p : Payload) : Acc :=
  (acc <<< Config.leadShift) + p.setWidth 64

/-- The ninth byte: `(acc << 8) + zext_64(d)`, unmasked (R80 step 3). -/
def pushLast (acc : Acc) (d : Byte) : Acc :=
  (acc <<< Config.lastShift) + d.setWidth 64

/-- The payloads of leading bytes, the first one first, pushed into an accumulator of 0 (R80). -/
def assembleLead (ps : List Payload) : Acc :=
  ps.foldl pushLead 0

/-- `s64`: the two's-complement reading, the sign at bit 63 for every length (30 R69). -/
def s64 (acc : Acc) : Int := acc.toInt

end Sys2Proof.Machine
end

