-- ==== Sys2Proof/Machine/Operation.lean ====
section
/-! DEFINITION. The operation DECODE as a function of a buffer (40 R80), the definition the other descriptions agree
with. -/

namespace Sys2Proof.Machine

/-- The one error (60 R160). -/
inductive DecodeError where
  | truncatedInput
  deriving DecidableEq, Repr

/-- The result of one decode (00 R8): no value and no count exist in the error case. -/
inductive Result where
  | ok (value : Int) (consumed : Nat)
  | error (e : DecodeError)
  deriving DecidableEq, Repr

/-- The loop of R80 at byte index `i`, the list holding the buffer from index `i` on. -/
def decodeLoop (i : Nat) (acc : Acc) : List Byte → Result
  | [] => .error .truncatedInput
  | b :: bs =>
    if i < Config.leadBytes then
      if contBit b then decodeLoop (i + 1) (pushLead acc (payload b)) bs
      else .ok (s64 (pushLead acc (payload b))) (i + 1)
    else .ok (s64 (pushLast acc b)) Config.maxBytes

/-- `DECODE(buf, len)`, `len` being the length of the list (R80). -/
def decodeOperation (buf : List Byte) : Result :=
  decodeLoop 0 0 buf

end Sys2Proof.Machine
end

