-- ==== Sys2Proof/Machine/Flags.lean ====
section
/-! DEFINITION. What is read off `ph`, `acc` and `idx`: the flags (10 R25), the result wires (10 R23, R24) and the
result view (41 R108). None of it is storage. -/

namespace Sys2Proof.Machine

/-- `done` (10 R25). -/
def State.doneFlag (s : State) : Bool := decide (s.ph = .done)

/-- `err` (10 R25). -/
def State.errFlag (s : State) : Bool := decide (s.ph = .err)

/-- `in_ready` (43 R151). -/
def State.inReady (s : State) : Bool := decide (s.ph = .busy)

/-- `status`: 0 = OK, 1 = TRUNCATED, no meaning until a decode ends (10 R25, R31). -/
def State.status (s : State) : Option (BitVec 1) :=
  match s.ph with
  | .done => some 0#1
  | .err => some 1#1
  | .idle => none
  | .busy => none

/-- The `value` wires: `acc` when `done`, else 0 (10 R23, 43 R151). -/
def State.value (s : State) : Acc := if s.doneFlag then s.acc else 0

/-- The `consumed` wires: `idx` when `done`, else 0 (10 R24, 43 R151). -/
def State.consumed (s : State) : Index := if s.doneFlag then s.idx else 0

/-- The result of the last decode, if it has ended (41 R108). -/
def State.result (s : State) : Option Result :=
  match s.ph with
  | .done => some (.ok (s64 s.acc) s.idx.toNat)
  | .err => some (.error .truncatedInput)
  | .idle => none
  | .busy => none

end Sys2Proof.Machine
end

