-- ==== Sys2Proof/Machine/Bytes.lean ====
section
/-! DEFINITION. The byte classes `CONT`, `TERM` and `LAST` (41 R103 to R105). -/

namespace Sys2Proof.Machine

/-- What a byte class does: outside `BUSY` there is no byte step and no register changes (41 R107); in `BUSY`, at an
index where the class exists (30 R64), the registers become `(ph, acc, idx + 1)`. -/
def Block.byteClass (legal : Bool) (ph : Phase) (acc : Acc) (b : Block) : Host.Outcome Block Fault Refusal :=
  if b.ph = .busy then
    if legal then .next { ph := ph, acc := acc, idx := b.idx + 1 } else .refused .wrongIndex
  else .next b

/-- `CONT p` on the block (R103). -/
def Block.cont (p : Payload) (b : Block) : Host.Outcome Block Fault Refusal :=
  Block.byteClass (decide (b.idx.toNat < Config.leadBytes)) .busy (pushLead b.acc p) b

/-- `TERM p` on the block (R104). -/
def Block.term (p : Payload) (b : Block) : Host.Outcome Block Fault Refusal :=
  Block.byteClass (decide (b.idx.toNat < Config.leadBytes)) .done (pushLead b.acc p) b

/-- `LAST d` on the block (R105). -/
def Block.last (d : Byte) (b : Block) : Host.Outcome Block Fault Refusal :=
  Block.byteClass (decide (b.idx.toNat = Config.leadBytes)) .done (pushLast b.acc d) b

/-- `CONT p` (R103). -/
def execCont (p : Payload) (s : State) : Host.Outcome State Fault Refusal :=
  s.lift (s.toBlock.cont p)

/-- `TERM p` (R104). -/
def execTerm (p : Payload) (s : State) : Host.Outcome State Fault Refusal :=
  s.lift (s.toBlock.term p)

/-- `LAST d` (R105). -/
def execLast (d : Byte) (s : State) : Host.Outcome State Fault Refusal :=
  s.lift (s.toBlock.last d)

end Sys2Proof.Machine
end

