-- ==== Sys2Proof/Machine/Forms.lean ====
section
/-! DEFINITION. The length forms `V1` to `V9` of the operation DECODE (30 R66, 40 R80). Like `START`, a decode takes no
notice of what the registers held (41 R101); it ends in `DONE` with the accumulator and the count (41 R108, R110). -/

namespace Sys2Proof.Machine

/-- The block after a decode that ends well with accumulator `acc` after `k` bytes. -/
def Block.ended (acc : Acc) (k : Index) : Block where
  ph := .done
  acc := acc
  idx := k

/-- A decode that ends well, on the machine. -/
def finishDecode (acc : Acc) (k : Index) (s : State) : Host.Outcome State Fault Refusal :=
  s.lift (.next (Block.ended acc k))

def execV1 (a : Payload) (s : State) : Host.Outcome State Fault Refusal :=
  finishDecode (assembleLead [a]) 1 s

def execV2 (a b : Payload) (s : State) : Host.Outcome State Fault Refusal :=
  finishDecode (assembleLead [a, b]) 2 s

def execV3 (a b c : Payload) (s : State) : Host.Outcome State Fault Refusal :=
  finishDecode (assembleLead [a, b, c]) 3 s

def execV4 (a b c d : Payload) (s : State) : Host.Outcome State Fault Refusal :=
  finishDecode (assembleLead [a, b, c, d]) 4 s

def execV5 (a b c d e : Payload) (s : State) : Host.Outcome State Fault Refusal :=
  finishDecode (assembleLead [a, b, c, d, e]) 5 s

def execV6 (a b c d e f : Payload) (s : State) : Host.Outcome State Fault Refusal :=
  finishDecode (assembleLead [a, b, c, d, e, f]) 6 s

def execV7 (a b c d e f g : Payload) (s : State) : Host.Outcome State Fault Refusal :=
  finishDecode (assembleLead [a, b, c, d, e, f, g]) 7 s

def execV8 (a b c d e f g h : Payload) (s : State) : Host.Outcome State Fault Refusal :=
  finishDecode (assembleLead [a, b, c, d, e, f, g, h]) 8 s

def execV9 (a b c d e f g h : Payload) (i : Byte) (s : State) : Host.Outcome State Fault Refusal :=
  finishDecode (pushLast (assembleLead [a, b, c, d, e, f, g, h]) i) 9 s

end Sys2Proof.Machine
end

