-- ==== Sys2Proof/Machine/Dispatch.lean ====
section
/-! DEFINITION. One arm per instruction. -/

namespace Sys2Proof.Machine

def exec (i : Instr) (s : State) : Host.Outcome State Fault Refusal :=
  match i with
  | .cont p => Sys2Proof.Machine.execCont p s
  | .term p => Sys2Proof.Machine.execTerm p s
  | .last d => Sys2Proof.Machine.execLast d s
  | .v1 a => Sys2Proof.Machine.execV1 a s
  | .v2 a b => Sys2Proof.Machine.execV2 a b s
  | .v3 a b c => Sys2Proof.Machine.execV3 a b c s
  | .v4 a b c d => Sys2Proof.Machine.execV4 a b c d s
  | .v5 a b c d e => Sys2Proof.Machine.execV5 a b c d e s
  | .v6 a b c d e f => Sys2Proof.Machine.execV6 a b c d e f s
  | .v7 a b c d e f g => Sys2Proof.Machine.execV7 a b c d e f g s
  | .v8 a b c d e f g h => Sys2Proof.Machine.execV8 a b c d e f g h s
  | .v9 a b c d e f g h d9 => Sys2Proof.Machine.execV9 a b c d e f g h d9 s

end Sys2Proof.Machine
end

