-- ==== Sys2Proof/Machine/Fetch.lean ====
section
/-! DEFINITION. Fetching: one byte of the buffer at `idx` for a byte step (41 R102), or the whole varint at index 0 for
the operation DECODE (40 R80). -/

namespace Sys2Proof.Machine

/-- What a fetch finds. -/
inductive Fetched where
  /-- An instruction to execute. -/
  | instr (i : Instr)
  /-- The buffer has no byte at an index the decode wants: `TruncatedInput` follows (60 R161). -/
  | noByte
  /-- The host stated a `len` larger than what it supplied (93 U6). -/
  | notSupplied
  /-- The index is above 8 (41 R102 requires 0 to 8). -/
  | outOfRange
  deriving DecidableEq, Repr

/-- The instruction a byte stands for at an index (30 R63, R64). -/
def classify (idx : Nat) (b : Byte) : Fetched :=
  match decodeByte idx b with
  | .ok i => .instr i
  | .error _ => .outOfRange

/-- `FETCH` (41 R102): the bounds test, the read at `idx`, and the class of the byte. -/
def fetchByte (buf : Buffer) (idx : Index) : Fetched :=
  if idx.toNat < Config.maxBytes then
    match memRead buf idx.toNat with
    | .byte b => classify idx.toNat b
    | .noByte => .noByte
    | .notSupplied => .notSupplied
  else .outOfRange

/-- `END` at an index: there is no byte there, which a decode wants to know at an index of 0 to 8 only (43 R150). -/
def endAt (idx : Nat) : Fetched :=
  if idx < Config.maxBytes then .noByte else .outOfRange

/-- What reading a whole varint finds. -/
inductive Gathered where
  | bytes (bs : List Byte)
  | noByte
  | notSupplied
  deriving DecidableEq, Repr

/-- Put a byte before what a read of the rest finds. -/
def Gathered.cons (b : Byte) : Gathered → Gathered
  | .bytes bs => .bytes (b :: bs)
  | .noByte => .noByte
  | .notSupplied => .notSupplied

/-- Read the bytes of a varint from index `i` on, `n` of them at most, in increasing order and none past the byte that
ends it (20 R42, 40 R80). -/
def gather (buf : Buffer) : Nat → Nat → Gathered
  | 0, _ => .bytes []
  | n + 1, i =>
    match memRead buf i with
    | .byte b => if contBit b then Gathered.cons b (gather buf n (i + 1)) else .bytes [b]
    | .noByte => .noByte
    | .notSupplied => .notSupplied

/-- The length form the buffer begins with (30 R65, R66). -/
def fetchVarint (buf : Buffer) : Fetched :=
  match gather buf Config.maxBytes 0 with
  | .bytes bs =>
    match decodeVarint bs with
    | .ok (i, _) => .instr i
    | .error _ => .noByte
  | .noByte => .noByte
  | .notSupplied => .notSupplied

end Sys2Proof.Machine
end

