-- ==== Sys2Proof/Machine/Serial.lean ====
section
/-! DEFINITION. Profile S: the event of a clock edge (43 R149) and the outputs (43 R151). The transition R150 is
`edge` in Machine/Run.lean. -/

namespace Sys2Proof.Machine

/-- The event of a step of profile S (43 R149). -/
inductive Event where
  /-- `RESET`. -/
  | reset
  /-- `START`. -/
  | start
  /-- `BYTE(b)`. -/
  | byte (b : Byte)
  /-- `END`: there is no byte at this index. -/
  | endOfBuffer
  /-- `NONE`: a stall in `BUSY`, nothing otherwise. -/
  | nothing
  deriving DecidableEq, Repr

/-- The event the sampled inputs and the phase give, in the priority of R149. -/
def event (p : Pins) (ph : Phase) : Event :=
  if p.rst then .reset
  else if ph = .busy then
    if p.inValid then (if p.inEnd then .endOfBuffer else .byte p.inByte) else .nothing
  else if p.start then .start
  else .nothing

/-- The output ports of profile S (43 R148). -/
structure SerialOut where
  inReady : Bool
  done : Bool
  err : Bool
  value : Acc
  consumed : Index
  deriving DecidableEq, Repr

/-- The outputs are functions of the current state only (43 R151). -/
def outputs (s : State) : SerialOut where
  inReady := s.inReady
  done := s.doneFlag
  err := s.errFlag
  value := s.value
  consumed := s.consumed

end Sys2Proof.Machine
end

