-- ==== Sys2Proof/Machine/Run.lean ====
section
/-! DEFINITION. What one step does: a byte step on the buffer (41 R100, R102), the whole operation DECODE (40 R80), one
clock edge of profile S (43 R150), and a move of the host. -/

namespace Sys2Proof.Machine

/-- What follows a fetch: execute the instruction found, or take `TruncatedInput` when there is no byte (41 R102). -/
def afterFetch (f : Fetched) (s : State) : Host.Outcome State Fault Refusal :=
  match f with
  | .instr i => exec i s
  | .noByte => .next s.raiseTruncated
  | .notSupplied => .refused .byteNotSupplied
  | .outOfRange => .fault .indexOutOfRange

/-- A byte step: `FETCH` and at once what its outcome selects (41 R100). -/
def byteStep (s : State) : Host.Outcome State Fault Refusal :=
  afterFetch (fetchByte s.toBuffer s.idx) s

/-- The operation DECODE on the buffer just handed over (40 R80). -/
def decodeStep (s : State) : Host.Outcome State Fault Refusal :=
  afterFetch (fetchVarint s.toBuffer) s

/-- The transition of one clock edge of profile S (43 R150). -/
def edge (p : Pins) (s : State) : Host.Outcome State Fault Refusal :=
  match event p s.ph with
  | .reset => .next s.resetRegs
  | .start => .next (s.startDecode .stream)
  | .byte b => afterFetch (classify s.idx.toNat b) s
  | .endOfBuffer => afterFetch (endAt s.idx.toNat) s
  | .nothing => .next s

/-- A move of the host. A decode is started only when none is running: a start in `BUSY` is ignored (43 R143, R149). -/
def hostMove (m : HostMove) (s : State) : Host.Outcome State Fault Refusal :=
  match m with
  | .decode r => if s.ph = .busy then .next s else decodeStep (s.handOver r)
  | .start r => if s.ph = .busy then .next s else .next ((s.handOver r).startDecode .buffer)
  | .edge p => edge p s

/-- The block runs a decode on its buffer: the host acts before it and after it only (41 R100). -/
def State.runsAlone (s : State) : Bool := decide (s.ph = .busy ∧ s.src = .buffer)

/-- What one step does: the running decode's next byte step; else the host's next move; else nothing, since the block has
no step of its own outside a decode (41 R107) and waits without limit for its stream (43 R150). -/
def advance (s : State) : Host.Outcome State Fault Refusal :=
  if s.runsAlone then byteStep s
  else
    match s.host with
    | [] => .next s
    | m :: rest => hostMove m (s.setHost rest)

/-- The host hands over the bytes of the word as the whole buffer: one byte with `START` done, so that the next step is
the byte step at index 0; more than one with the move `decode` first in the queue (log entry 12). -/
def placeInstruction (s : State) (nbits w : Nat) : State :=
  let r : Request := { bytes := bytesOfWord (nbits / 8) w, len := nbits / 8 }
  if nbits = 8 then (s.handOver r).startDecode .buffer
  else { s with ph := if s.ph = .busy then .idle else s.ph, host := .decode r :: s.host }

end Sys2Proof.Machine
end

