-- ==== Sys2Proof/Machine/Canonical.lean ====
section
/-! DEFINITION. The canonical encoder `ENCODE(v)` (42 R127) and the pseudo-instruction `VARINT v` (30 R76): aids of the
spec, not operations of the block (00 R4). -/

namespace Sys2Proof.Machine

/-- The canonical length of the 64-bit pattern `u`: the least `k` in 1 to 8 with `u < 2^(7k)`, else 9 (R127, R129). -/
def canonicalLength (u : Acc) : Nat :=
  match (List.range' 1 8).find? (fun k => decide (u.toNat < 2 ^ (7 * k))) with
  | some k => k
  | none => Config.maxBytes

/-- The form of `k <= 8` bytes: continuation bytes, then the low seven bits with bit 7 clear (R127). -/
def encodeShort (u : Acc) (k : Nat) : List Byte :=
  (List.range (k - 1)).map (fun i => contByte (u.extractLsb' (7 * (k - 1 - i)) 7)) ++
    [termByte (u.extractLsb' 0 7)]

/-- The form of nine bytes: bits 63 to 8 in eight continuation bytes, then the low byte (R127). -/
def encodeLong (u : Acc) : List Byte :=
  (List.range 8).map (fun i => contByte (u.extractLsb' (7 * (7 - i) + 8) 7)) ++ [u.extractLsb' 0 8]

/-- `ENCODE(v)`, on the 64-bit pattern of `v` (R127). -/
def encodeValue (v : Int) : List Byte :=
  let u : Acc := BitVec.ofInt 64 v
  if canonicalLength u < Config.maxBytes then encodeShort u (canonicalLength u) else encodeLong u

/-- `VARINT v`: the canonical listing that decodes to `v` (30 R76). -/
def varintListing (v : Int) : Except Reject (List Instr) :=
  disassembleFrom 0 (encodeValue v)

end Sys2Proof.Machine
end

