-- ==== Sys2Proof/Machine/Relation.lean ====
section
/-! DEFINITION. The block's own step relation: its state is the three registers, and the buffer and its length are
arguments (10 R29, 41 R100). The machine's byte step is this relation with the buffer the host handed over. -/

namespace Sys2Proof.Machine

/-- What follows a fetch, on the block: the class of the byte, or `TruncatedInput` when there is no byte (41 R102). A length
form is no byte class, and no fetch of a byte yields one. -/
def Block.afterFetch (f : Fetched) (b : Block) : Host.Outcome Block Fault Refusal :=
  match f with
  | .instr (.cont p) => b.cont p
  | .instr (.term p) => b.term p
  | .instr (.last d) => b.last d
  | .instr (.v1 ..) => .refused .wrongIndex
  | .instr (.v2 ..) => .refused .wrongIndex
  | .instr (.v3 ..) => .refused .wrongIndex
  | .instr (.v4 ..) => .refused .wrongIndex
  | .instr (.v5 ..) => .refused .wrongIndex
  | .instr (.v6 ..) => .refused .wrongIndex
  | .instr (.v7 ..) => .refused .wrongIndex
  | .instr (.v8 ..) => .refused .wrongIndex
  | .instr (.v9 ..) => .refused .wrongIndex
  | .noByte => .next Block.truncated
  | .notSupplied => .refused .byteNotSupplied
  | .outOfRange => .fault .indexOutOfRange

/-- The step relation of a decode on `buf`: a byte step in `BUSY`, and none outside (41 R100, R107). -/
def Block.step (buf : Buffer) (b : Block) : Host.Outcome Block Fault Refusal :=
  if b.ph = .busy then Block.afterFetch (fetchByte buf b.idx) b else .next b

end Sys2Proof.Machine
end

