-- ==== Sys2Proof/Machine/Window.lean ====
section
/-! DEFINITION. The closed form over a window of nine byte lanes (42 R120 to R123) and profile W, the combinational
block with pins (43 R145 to R147). Neither holds storage. -/

namespace Sys2Proof.Machine

/-- The nine lanes, as the pins of profile W carry them (43 R145). -/
abbrev Window := BitVec 72

/-- Lane `i`: `win[8i+7 : 8i]` carries `buf[i]` (43 R145). -/
def lane (win : Window) (i : Nat) : Byte := win.extractLsb' (8 * i) 8

/-- `P = p(0) ∥ p(1) ∥ … ∥ p(7)`, from all eight leading lanes (42 R123). -/
def leadWord (win : Window) : BitVec 56 :=
  payload (lane win 0) ++ payload (lane win 1) ++ payload (lane win 2) ++ payload (lane win 3) ++
  payload (lane win 4) ++ payload (lane win 5) ++ payload (lane win 6) ++ payload (lane win 7)

/-- The length select, with `n` lanes carrying bytes: `k`, or none for `TruncatedInput` (42 R121, R122). The first clear
continuation bit below `min(n, 8)` wins; if there is none, the ninth lane when it is there. -/
def lengthSelect (win : Window) (n : Nat) : Option Nat :=
  match (List.range (min n Config.leadBytes)).find? (fun i => !contBit (lane win i)) with
  | some t => some (t + 1)
  | none => if n = Config.maxBytes then some Config.maxBytes else none

/-- The accumulator for length `k`: the barrel shift `P >> (7 * (8 - k))`, or `P ∥ d` (42 R123). -/
def barrel (win : Window) (k : Nat) : Acc :=
  if k = Config.maxBytes then leadWord win ++ lane win 8
  else (leadWord win >>> (Config.leadShift * (Config.leadBytes - k))).setWidth 64

/-- The closed form's outcome, the accumulator beside the count. -/
def closedForm (win : Window) (n : Nat) : Option (Acc × Nat) :=
  (lengthSelect win n).map fun k => (barrel win k, k)

/-- The output ports of profile W (43 R145). -/
structure WindowOut where
  value : Acc
  consumed : Index
  err : Bool
  deriving DecidableEq, Repr

/-- The number of lanes that carry bytes: 10 to 15 are taken as 9 (43 R147). -/
def lanesAvailable (avail : BitVec 4) : Nat := min avail.toNat Config.maxBytes

/-- The function of profile W (43 R146): zeros beside `err` when the decode is truncated. -/
def profileW (win : Window) (avail : BitVec 4) : WindowOut :=
  match closedForm win (lanesAvailable avail) with
  | some (acc, k) => { value := acc, consumed := BitVec.ofNat 4 k, err := false }
  | none => { value := 0, consumed := 0, err := true }

/-- The window of a buffer: its first nine bytes on their lanes, the other lanes zero (42 R120). -/
def windowOf : List Byte → Window
  | [] => 0
  | b :: bs => (windowOf bs <<< 8) ||| b.setWidth 72

end Sys2Proof.Machine
end

