-- ==== Sys2Proof/Safety.lean ====
section
/-! DEFINITION. The terms claims are stated in: runs, the invariant of every reachable state (10 R30), a host that states
its lengths truthfully (43 R142), and what a schedule of profile S presents (43 R152). -/

namespace Sys2Proof.Machine

/-- `n` steps, stopping at the first fault or refusal. -/
def run : Nat → State → Host.Outcome State Fault Refusal
  | 0, s => .next s
  | n + 1, s =>
    match step s with
    | .next t => run n t
    | .fault f => .fault f
    | .refused r => .refused r

/-- The byte at index `i`, for an index where the host supplied one. -/
def byteAt (buf : Buffer) (i : Nat) : Byte := (Memory.read buf.mem i).getD 0

/-- Index `i` holds a byte with its continuation bit set. -/
def ContAt (buf : Buffer) (i : Nat) : Prop := ∃ b, Memory.read buf.mem i = some b ∧ contBit b = true

/-- Index `i` holds a byte with its continuation bit clear. -/
def TermAt (buf : Buffer) (i : Nat) : Prop := ∃ b, Memory.read buf.mem i = some b ∧ contBit b = false

/-- The sum of the payloads of the first `n` bytes, the first the most significant (10 R30, 30 R68). -/
def payloadSum (buf : Buffer) (n : Nat) : Nat :=
  ∑ i ∈ Finset.range n, (payload (byteAt buf i)).toNat * 2 ^ (7 * (n - 1 - i))

/-- The part of the invariant that speaks of the registers alone (10 R30 points 1 to 3, R31, 41 R106). -/
def RegsInv (s : State) : Prop :=
  match s.ph with
  | .idle => s.acc = 0 ∧ s.idx = 0
  | .busy => s.idx.toNat ≤ 8 ∧ s.acc.toNat < 2 ^ (7 * s.idx.toNat)
  | .done => 1 ≤ s.idx.toNat ∧ s.idx.toNat ≤ 9 ∧ (s.idx.toNat ≤ 8 → s.acc.toNat < 2 ^ (7 * s.idx.toNat))
  | .err => s.acc = 0 ∧ s.idx = 0

/-- The part of the invariant that speaks of the buffer the decode runs on (10 R30 points 2 to 4). -/
def BufferInv (s : State) : Prop :=
  match s.ph with
  | .idle => True
  | .busy => s.idx.toNat ≤ s.len ∧ (∀ i < s.idx.toNat, ContAt s.toBuffer i) ∧ s.acc.toNat = payloadSum s.toBuffer s.idx.toNat
  | .done =>
    s.idx.toNat ≤ s.len ∧ (∀ i < s.idx.toNat - 1, ContAt s.toBuffer i) ∧
      (s.idx.toNat ≤ 8 → TermAt s.toBuffer (s.idx.toNat - 1) ∧ s.acc.toNat = payloadSum s.toBuffer s.idx.toNat)
  | .err => s.len ≤ 8 ∧ ∀ i < s.len, ContAt s.toBuffer i

/-- The invariant: memory in canonical form, and 10 R30 (for the buffer, where the decode's bytes come from one). -/
def StateInv (s : State) : Prop :=
  Memory.wf s.mem = true ∧ RegsInv s ∧ (s.src = .buffer → BufferInv s)

/-- The host's duty on lengths (43 R142): no longer than what it supplies. -/
def Request.truthful (r : Request) : Prop := r.len ≤ r.bytes.length

/-- A move that keeps that duty. -/
def HostMove.truthful : HostMove → Prop
  | .decode r => r.truthful
  | .start r => r.truthful
  | .edge _ => True

/-- The buffer of the running decode is there for its whole length, and so it will be for every decode to come. -/
def State.truthful (s : State) : Prop :=
  (s.ph = .busy → s.src = .buffer → ∀ i < s.len, ∃ b, Memory.read s.mem i = some b) ∧
    ∀ m ∈ s.host, m.truthful

/-- The buffer of a decode: the bytes the host supplies, up to the length it states (43 R142). -/
def Request.buffer (r : Request) : List Byte := r.bytes.take r.len

/-- How many byte steps a decode takes: `k` when it ends with `OK(v, k)`, else `len + 1` (41 R111). -/
def byteStepCount (buf : List Byte) : Nat :=
  match decodeOperation buf with
  | .ok _ k => k
  | .error _ => buf.length + 1

/-- How many steps a decode takes from before its `START` (41 R111). -/
def stepCount (buf : List Byte) : Nat := 1 + byteStepCount buf

/-- The fetch outcomes a schedule of profile S presents, in order: a byte, or none at the end of the buffer (43 R148). -/
def presented (ps : List Pins) : List (Option Byte) :=
  ps.filterMap fun p => if p.inValid then some (if p.inEnd then none else some p.inByte) else none

end Sys2Proof.Machine
end

