-- ==== Sys2Proof/Certificates/Slice0/Obligations.lean ====
section
/-! DEFINITION. The statements for the provers. Each docstring names the rules of spec/ it formalises, or, for a
statement whose basis is derived, the section it rests on; the clauses a conclusion of the spec's own marks [derived]
cite no rule. -/

open Sys2Proof Sys2Proof.Machine

-- ==== Reset, start, flags and the result view ====

/-- 10 R31: every piece of state at its two moments, after hardware reset and at the start of a decode. The fields
`src`, `mem`, `len` and `host` of the reset state are the model's choice (log entry 3) and are not spoken of; that a
`status` with no meaning reads as none is log entry 10. -/
def Obligations.ResetAndStartValues : Prop :=
  (State.reset.acc = 0 ∧ State.reset.idx = 0 ∧ State.reset.ph = .idle ∧ State.reset.doneFlag = false ∧
    State.reset.errFlag = false ∧ State.reset.status = none ∧ State.reset.value = 0 ∧ State.reset.consumed = 0 ∧
    State.reset.result = none) ∧
  ∀ (s : State) (src : Source),
    (s.startDecode src).acc = 0 ∧ (s.startDecode src).idx = 0 ∧ (s.startDecode src).ph = .busy ∧
    (s.startDecode src).doneFlag = false ∧ (s.startDecode src).errFlag = false ∧
    (s.startDecode src).status = none ∧ (s.startDecode src).value = 0 ∧ (s.startDecode src).consumed = 0 ∧
    (s.startDecode src).result = none ∧ (s.startDecode src).mem = s.mem ∧ (s.startDecode src).len = s.len

/-- 70 R182: with `rst` high the next state is `(IDLE, 0, 0)` whatever the state and the other inputs were, all outputs
then read 0, a decode in progress is abandoned without a result, and the block then waits for `start`.
The host's moves and the field `src` are the model's own (log entry 2). -/
def Obligations.ResetEdgeAbandonsDecode : Prop :=
  ∀ (s : State) (p : Pins) (rest : List HostMove), p.rst = true →
    edge p s = .next { s with ph := .idle, acc := 0, idx := 0 } ∧
    (s.runsAlone = false → s.host = .edge p :: rest →
      step s = .next { s with ph := .idle, acc := 0, idx := 0, host := rest }) ∧
    ∀ t, edge p s = .next t →
      outputs t = { inReady := false, done := false, err := false, value := 0, consumed := 0 } ∧
      t.result = none ∧
      ∀ q : Pins, q.rst = false → q.start = false → edge q t = .next t

/-- 41 R101: `START` clears the registers and both flags whatever they held, reads no byte, and is caused by the host
outside `BUSY`, on a buffer or by an edge of profile S; its example from `(DONE, 0x80, 2)`.
The host's moves and the field `src` are the model's own (log entry 2). -/
def Obligations.StartBeginsFreshDecode : Prop :=
  (∀ (s : State) (r : Request) (rest : List HostMove), s.ph ≠ .busy → s.host = .start r :: rest →
    step s = .next { ph := .busy, acc := 0, idx := 0, src := .buffer, mem := Memory.ofBytes r.bytes, len := r.len,
                     host := rest }) ∧
  (∀ (s : State) (p : Pins), s.ph ≠ .busy → p.rst = false → p.start = true →
    edge p s = .next { s with ph := .busy, acc := 0, idx := 0, src := .stream }) ∧
  (∀ (s : State) (src : Source), s.startDecode src = { s with ph := .busy, acc := 0, idx := 0, src := src } ∧
    (s.startDecode src).doneFlag = false ∧ (s.startDecode src).errFlag = false) ∧
  ∀ (s : State) (src : Source), s.ph = .done → s.acc = 0x80 → s.idx = 2 →
    ((s.startDecode src).ph, (s.startDecode src).acc, (s.startDecode src).idx) = (Phase.busy, 0, 0)

/-- 10 R23, R24 and 41 R108: the result wires mean something in `DONE` only and are driven to 0 elsewhere, and the
result of an ended decode is `OK(s64(acc), idx)` or `TruncatedInput`; in a state that meets the invariant the count is
in 1 to 9. -/
def Obligations.ResultIsReadOffRegisters : Prop :=
  ∀ s : State,
    (s.ph = .done → s.value = s.acc ∧ s.consumed = s.idx ∧ s.result = some (.ok (s64 s.acc) s.idx.toNat)) ∧
    (s.ph = .err → s.result = some (.error .truncatedInput)) ∧
    (s.ph ≠ .done → s.value = 0 ∧ s.consumed = 0) ∧
    (s.ph = .busy ∨ s.ph = .idle → s.result = none) ∧
    (StateInv s → s.ph = .done → 1 ≤ s.consumed.toNat ∧ s.consumed.toNat ≤ 9)

/-- 10 R25: the flags are functions of the phase, never both 1; `TERM` and `LAST` set `done`, `CONT` leaves both,
`TRUNC` sets `err`, and the next decode's start and reset clear both. -/
def Obligations.FlagsFollowPhase : Prop :=
  (∀ s : State,
    (s.doneFlag = true ↔ s.ph = .done) ∧ (s.errFlag = true ↔ s.ph = .err) ∧
    ¬ (s.doneFlag = true ∧ s.errFlag = true) ∧
    (s.doneFlag = true → s.status = some 0#1) ∧ (s.errFlag = true → s.status = some 1#1)) ∧
  (∀ (s t : State) (i : Instr), s.ph = .busy → i.isByteClass = true → exec i s = .next t →
    t.errFlag = false ∧ (t.doneFlag = false ↔ ∃ p, i = .cont p)) ∧
  (∀ s : State, s.raiseTruncated.errFlag = true ∧ s.raiseTruncated.doneFlag = false) ∧
  (∀ (s : State) (src : Source), (s.startDecode src).errFlag = false ∧ (s.startDecode src).doneFlag = false) ∧
  ∀ s : State, s.resetRegs.errFlag = false ∧ s.resetRegs.doneFlag = false

/-- 30 R69: the value is the accumulator's two's-complement reading with the sign at bit 63, for every length. -/
def Obligations.SignBitIsBit63 : Prop :=
  (∀ acc : Acc, s64 acc = if acc.getLsbD 63 then (acc.toNat : Int) - 2 ^ 64 else (acc.toNat : Int)) ∧
  ∀ s : State, s.ph = .done → ∃ v, s.result = some (.ok v s.idx.toNat) ∧
    v = if s.acc.getLsbD 63 then (s.acc.toNat : Int) - 2 ^ 64 else (s.acc.toNat : Int)

-- ==== Encoding ====

/-- 30 R61, R62, R63: the index decides the format; a leading byte's bit 7 (mask `0x80`) decides its class and its low
seven bits (mask `0x7F`) are its payload; the ninth byte is all payload; no byte at index 9 or above is decoded. -/
def Obligations.IndexDecidesByteFormat : Prop :=
  ∀ (idx : Nat) (b : Byte),
    (idx ≤ 7 → b &&& 0x80#8 = 0x80#8 → ∃ p : Payload, p.toNat = (b &&& 0x7F#8).toNat ∧
      decodeByte idx b = .ok (.cont p)) ∧
    (idx ≤ 7 → b &&& 0x80#8 = 0x00#8 → ∃ p : Payload, p.toNat = (b &&& 0x7F#8).toNat ∧
      decodeByte idx b = .ok (.term p)) ∧
    (idx = 8 → decodeByte idx b = .ok (.last b)) ∧
    (9 ≤ idx → decodeByte idx b = .error .noFormat)

/-- 30 R66: each length form's pattern, written bit by bit, has the table's mask and match, and decodes to that form
with each payload in its place. -/
def Obligations.LengthFormPatternsDecode : Prop :=
  (∀ a : Payload, let w : BitVec 8 := 0#1 ++ a
    w &&& 0x80#8 = 0x00#8 ∧ decodeVarint (bytesOfWord 1 w.toNat) = .ok (.v1 a, [])) ∧
  (∀ a b : Payload, let w : BitVec 16 := 1#1 ++ a ++ 0#1 ++ b
    w &&& 0x8080#16 = 0x8000#16 ∧ decodeTableWord 16 w.toNat = some (.v2 a b)) ∧
  (∀ a b c : Payload, let w : BitVec 24 := 1#1 ++ a ++ 1#1 ++ b ++ 0#1 ++ c
    w &&& 0x808080#24 = 0x808000#24 ∧ decodeTableWord 24 w.toNat = some (.v3 a b c)) ∧
  (∀ a b c d : Payload, let w : BitVec 32 := 1#1 ++ a ++ 1#1 ++ b ++ 1#1 ++ c ++ 0#1 ++ d
    w &&& 0x80808080#32 = 0x80808000#32 ∧ decodeTableWord 32 w.toNat = some (.v4 a b c d)) ∧
  (∀ a b c d e : Payload, let w : BitVec 40 := 1#1 ++ a ++ 1#1 ++ b ++ 1#1 ++ c ++ 1#1 ++ d ++ 0#1 ++ e
    w &&& 0x8080808080#40 = 0x8080808000#40 ∧ decodeTableWord 40 w.toNat = some (.v5 a b c d e)) ∧
  (∀ a b c d e f : Payload,
    let w : BitVec 48 := 1#1 ++ a ++ 1#1 ++ b ++ 1#1 ++ c ++ 1#1 ++ d ++ 1#1 ++ e ++ 0#1 ++ f
    w &&& 0x808080808080#48 = 0x808080808000#48 ∧ decodeTableWord 48 w.toNat = some (.v6 a b c d e f)) ∧
  (∀ a b c d e f g : Payload,
    let w : BitVec 56 := 1#1 ++ a ++ 1#1 ++ b ++ 1#1 ++ c ++ 1#1 ++ d ++ 1#1 ++ e ++ 1#1 ++ f ++ 0#1 ++ g
    w &&& 0x80808080808080#56 = 0x80808080808000#56 ∧ decodeTableWord 56 w.toNat = some (.v7 a b c d e f g)) ∧
  (∀ a b c d e f g h : Payload,
    let w : BitVec 64 :=
      1#1 ++ a ++ 1#1 ++ b ++ 1#1 ++ c ++ 1#1 ++ d ++ 1#1 ++ e ++ 1#1 ++ f ++ 1#1 ++ g ++ 0#1 ++ h
    w &&& 0x8080808080808080#64 = 0x8080808080808000#64 ∧
    decodeTableWord 64 w.toNat = some (.v8 a b c d e f g h)) ∧
  ∀ (a b c d e f g h : Payload) (i : Byte),
    let w : BitVec 72 :=
      1#1 ++ a ++ 1#1 ++ b ++ 1#1 ++ c ++ 1#1 ++ d ++ 1#1 ++ e ++ 1#1 ++ f ++ 1#1 ++ g ++ 1#1 ++ h ++ i
    w &&& 0x808080808080808000#72 = 0x808080808080808000#72 ∧
    decodeTableWord 72 w.toNat = some (.v9 a b c d e f g h i)

/-- 30 section 1: decoding an encoded instruction gives it back, with every operand at every value: a byte class at each
index where it is legal, a length form whatever bytes follow it. -/
def Obligations.DecodeOfEncode : Prop :=
  ∀ i : Instr,
    (i.isByteClass = true → ∀ idx, i.legalAt idx = true → ∃ b, encode i = [b] ∧ decodeByte idx b = .ok i) ∧
    (i.isByteClass = false → ∀ rest : List Byte, decodeVarint (encode i ++ rest) = .ok (i, rest))

/-- 30 section 1, the other direction: what the decoder reads is the encoding of what it answers, and a byte class it
answers is legal at that index. -/
def Obligations.EncodeOfDecode : Prop :=
  (∀ (idx : Nat) (b : Byte) (i : Instr), decodeByte idx b = .ok i →
    encode i = [b] ∧ i.isByteClass = true ∧ i.legalAt idx = true) ∧
  ∀ (bs rest : List Byte) (i : Instr), decodeVarint bs = .ok (i, rest) →
    encode i ++ rest = bs ∧ i.isByteClass = false

/-- 30 section 1 (the prefix code): no length form's encoding begins another's; every nine bytes begin with a form; a
shorter buffer begins with none exactly when every byte of it has bit 7 set. -/
def Obligations.LengthFormsArePrefixCode : Prop :=
  (∀ i j : Instr, i.isByteClass = false → j.isByteClass = false → encode i <+: encode j → i = j) ∧
  (∀ bs : List Byte, 9 ≤ bs.length → ∃ i rest, decodeVarint bs = .ok (i, rest)) ∧
  ∀ bs : List Byte, bs.length < 9 →
    (decodeVarint bs = .error .truncated ↔ ∀ b ∈ bs, contBit b = true)

/-- 30 R65: the length is one more than the least index in 0 to 7 whose byte has bit 7 clear, or 9 when bytes 0 to 7 all
have it set, whatever the ninth byte holds. -/
def Obligations.LengthIsToldByOwnBytes : Prop :=
  (∀ (bs : List Byte) (t : Nat), t ≤ 7 → t < bs.length → contBit (bs.getD t 0) = false →
    (∀ j < t, contBit (bs.getD j 0) = true) →
    ∃ i, decodeVarint bs = .ok (i, bs.drop (t + 1)) ∧ i.size = t + 1) ∧
  ∀ bs : List Byte, 9 ≤ bs.length → (∀ j < 8, contBit (bs.getD j 0) = true) →
    ∃ i, decodeVarint bs = .ok (i, bs.drop 9) ∧ i.size = 9

/-- 30 section 4 (the listing and `VARINT v`): a well-formed listing assembles to bytes that disassemble to it, whatever
follows; every listing the disassembler gives is well formed; and `VARINT v` stands for a well-formed listing of the
canonical encoding, which decodes to `v`. That eight `CONT` lines and a `TERM` line are ill formed is the model's choice
(log entry 18). -/
def Obligations.ListingRoundTrip : Prop :=
  (∀ (l : List Instr) (tail : List Byte), listingWellFormed l = true →
    disassembleFrom 0 (assemble l ++ tail) = .ok l) ∧
  (∀ (bs : List Byte) (l : List Instr), disassembleFrom 0 bs = .ok l →
    listingWellFormed l = true ∧ assemble l <+: bs) ∧
  ∀ v : Int, -2 ^ 63 ≤ v → v < 2 ^ 63 → ∃ l, varintListing v = .ok l ∧ listingWellFormed l = true ∧
    assemble l = encodeValue v ∧ decodeOperation (assemble l) = .ok v l.length

/-- 30 section 1: words written out from the encoding tables decode to what they stand for. That `decodeTableWord` reads
a word of 8 bits at index 0 is the model's choice (log entry 12). -/
def Obligations.TableWordsDecode : Prop :=
  decodeByte 0 0b10000001#8 = .ok (.cont 1) ∧ decodeByte 7 0b01111111#8 = .ok (.term 127) ∧
  decodeByte 8 0b10000000#8 = .ok (.last 0x80) ∧
  decodeTableWord 8 0b10000001 = some (.cont 1) ∧ decodeTableWord 8 0b00000101 = some (.term 5) ∧
  decodeTableWord 16 0b1000001000101100 = some (.v2 2 44) ∧
  decodeTableWord 24 0b100000111111111101111111 = some (.v3 3 127 127) ∧
  decodeTableWord 72 0xC08080808080808000 = some (.v9 64 0 0 0 0 0 0 0 0)

-- ==== The byte steps ====

/-- 41 R103 `CONT p`: its encoding at index 0 to 7; in `BUSY` there it shifts the accumulator left by 7 and adds the
payload, adds 1 to the index and stays `BUSY`, writing no flag; the shift drops no bit; after it at index 7 the next
byte is `LAST` whatever its bit 7; its example. -/
def Obligations.ContinuationByteStep : Prop :=
  ∀ (p : Payload) (s : State), s.ph = .busy → s.idx.toNat ≤ 7 →
    decodeByte s.idx.toNat (1#1 ++ p) = .ok (.cont p) ∧
    ∃ t, exec (.cont p) s = .next t ∧
      t = { s with acc := (s.acc <<< 7) + p.setWidth 64, idx := s.idx + 1 } ∧
      t.idx.toNat = s.idx.toNat + 1 ∧ t.ph = .busy ∧ t.doneFlag = s.doneFlag ∧ t.errFlag = s.errFlag ∧
      (s.acc.toNat < 2 ^ (7 * s.idx.toNat) → t.acc.toNat = s.acc.toNat * 2 ^ 7 + p.toNat) ∧
      (s.idx.toNat = 7 → ∀ b : Byte, decodeByte t.idx.toNat b = .ok (.last b)) ∧
      (s.acc = 0 → s.idx = 0 → p = 1 → t.acc = 1 ∧ t.idx = 1)

/-- 41 R104 `TERM p`: its encoding at index 0 to 7; in `BUSY` there it adds the payload exactly as `CONT` does, adds 1 to
the index and sets `DONE`, with `OK(s64(acc), idx)` the result; the accumulator stays below `2^56`, so the value is not
negative; at index 0 the value is the byte; its example. -/
def Obligations.TerminatingByteStep : Prop :=
  ∀ (p : Payload) (s : State), s.ph = .busy → s.idx.toNat ≤ 7 →
    decodeByte s.idx.toNat (0#1 ++ p) = .ok (.term p) ∧
    ∃ t, exec (.term p) s = .next t ∧
      t = { s with acc := (s.acc <<< 7) + p.setWidth 64, idx := s.idx + 1, ph := .done } ∧
      t.idx.toNat = s.idx.toNat + 1 ∧ t.doneFlag = true ∧ t.errFlag = false ∧
      t.result = some (.ok (s64 t.acc) t.idx.toNat) ∧
      (s.acc.toNat < 2 ^ (7 * s.idx.toNat) → t.acc.toNat = s.acc.toNat * 2 ^ 7 + p.toNat ∧
        t.acc.toNat < 2 ^ 56 ∧ 0 ≤ s64 t.acc) ∧
      (s.acc = 0 → s.idx = 0 → t.result = some (.ok p.toNat 1)) ∧
      (s.acc = 1 → s.idx = 1 → p = 0 → t.result = some (.ok 128 2))

/-- 41 R105 `LAST d`: in `BUSY` at index 8, whatever bit 7 of the byte, it shifts the accumulator left by 8, adds all
eight bits, sets the index to 9 and the phase to `DONE`, with `OK(s64(acc), 9)` the result; the shift drops no bit; no
tenth byte has a format; its example of -1; and it is the only step that can make the value negative. -/
def Obligations.NinthByteStep : Prop :=
  (∀ (d : Byte) (s : State), s.ph = .busy → s.idx = 8 →
    decodeByte s.idx.toNat d = .ok (.last d) ∧
    ∃ t, exec (.last d) s = .next t ∧
      t = { s with acc := (s.acc <<< 8) + d.setWidth 64, idx := 9, ph := .done } ∧
      t.doneFlag = true ∧ t.errFlag = false ∧ t.result = some (.ok (s64 t.acc) 9) ∧
      (s.acc.toNat < 2 ^ 56 → t.acc.toNat = s.acc.toNat * 2 ^ 8 + d.toNat) ∧
      (∀ b : Byte, decodeByte t.idx.toNat b = .error .noFormat) ∧
      (s.acc.toNat = 2 ^ 56 - 1 → d = 0xFF → t.result = some (.ok (-1) 9))) ∧
  ∀ (p : Payload) (s t : State), s.ph = .busy → s.acc.toNat < 2 ^ (7 * s.idx.toNat) →
    (exec (.cont p) s = .next t ∨ exec (.term p) s = .next t) → 0 ≤ s64 t.acc

/-- 41 R102 `FETCH`: in `BUSY` at an index of 0 to 8 the bounds test comes first; the byte's class follows from the index
and bit 7, and that class is what the byte step executes; the outcome `NoByte` leads to `TRUNC`. -/
def Obligations.FetchSelectsTheStep : Prop :=
  ∀ s : State, s.ph = .busy → s.idx.toNat ≤ 8 →
    (s.len ≤ s.idx.toNat → fetchByte s.toBuffer s.idx = .noByte ∧ byteStep s = .next s.raiseTruncated) ∧
    ∀ b : Byte, s.idx.toNat < s.len → Memory.read s.mem s.idx.toNat = some b →
      (s.idx.toNat ≤ 7 → b.getLsbD 7 = true →
        fetchByte s.toBuffer s.idx = .instr (.cont (b.setWidth 7)) ∧ byteStep s = exec (.cont (b.setWidth 7)) s) ∧
      (s.idx.toNat ≤ 7 → b.getLsbD 7 = false →
        fetchByte s.toBuffer s.idx = .instr (.term (b.setWidth 7)) ∧ byteStep s = exec (.term (b.setWidth 7)) s) ∧
      (s.idx.toNat = 8 → fetchByte s.toBuffer s.idx = .instr (.last b) ∧ byteStep s = exec (.last b) s)

/-- 20 R41: `MemRead(i, 1)` returns the byte of the buffer below `len`, and no byte from `len` up, where the step that
asked raises `TruncatedInput`. -/
def Obligations.MemReadIsBounded : Prop :=
  (∀ (s : State) (r : Request) (i : Nat) (b : Byte), i < r.len → r.bytes[i]? = some b →
    memRead (s.handOver r).toBuffer i = .byte b) ∧
  (∀ (s : State) (i : Nat), s.len ≤ i → memRead s.toBuffer i = .noByte) ∧
  ∀ s : State, s.runsAlone = true → s.idx.toNat ≤ 8 → s.len ≤ s.idx.toNat →
    step s = .next { s with ph := .err, acc := 0, idx := 0 }

/-- 41 R106 and 60 R166: a byte step with no byte takes `TruncatedInput`: `(ERR, 0, 0)`, `err` 1, `done` 0, no value and
no count, the error the result; nothing is saved and nothing else changes. -/
def Obligations.TruncatedInputIsTaken : Prop :=
  ∀ s : State, s.runsAlone = true → s.idx.toNat ≤ 8 → s.len ≤ s.idx.toNat →
    ∃ t, step s = .next t ∧ t = { s with ph := .err, acc := 0, idx := 0 } ∧
      t.errFlag = true ∧ t.doneFlag = false ∧ t.value = 0 ∧ t.consumed = 0 ∧ t.status = some 1#1 ∧
      t.result = some (.error .truncatedInput)

/-- 60 R161: a byte step at an index of 0 to 8 raises `TruncatedInput` exactly when the index has reached `len`, and a
decode ends in it exactly when the buffer has at most eight bytes, all with bit 7 set. In a state that meets the invariant
it is raised at index `len`, every byte below having bit 7 set; no byte class raises it. -/
def Obligations.TruncatedExactlyWhenShort : Prop :=
  (∀ s t : State, s.runsAlone = true → s.idx.toNat ≤ 8 → step s = .next t →
    (t.ph = .err ↔ s.len ≤ s.idx.toNat)) ∧
  (∀ s t : State, StateInv s → s.runsAlone = true → step s = .next t → t.ph = .err →
    s.idx.toNat = s.len ∧ ∀ i < s.len, ContAt s.toBuffer i) ∧
  (∀ (s t : State) (i : Instr), s.ph = .busy → i.isByteClass = true → exec i s = .next t → t.ph ≠ .err) ∧
  ∀ buf : List Byte, decodeOperation buf = .error .truncatedInput ↔
    buf.length ≤ 8 ∧ ∀ b ∈ buf, contBit b = true

/-- 41 section 3 (the ended decode): outside `BUSY` no register changes, and only a start of a decode or a reset of
profile S leaves such a state. That a byte class executed there answers the same state is the model's inference from the
byte that is ignored there (log entry 7). The host's moves and the field `src` are the model's own (log entry 2). -/
def Obligations.EndedDecodeStaysEnded : Prop :=
  (∀ s : State, s.ph ≠ .busy → s.host = [] → step s = .next s) ∧
  (∀ (s : State) (i : Instr), s.ph ≠ .busy → i.isByteClass = true → exec i s = .next s) ∧
  ∀ s t : State, s.ph ≠ .busy → step s = .next t →
    (t.ph, t.acc, t.idx) = (s.ph, s.acc, s.idx) ∨
    ∃ m rest, s.host = m :: rest ∧
      ((∃ r, m = .decode r) ∨ (∃ r, m = .start r) ∨ ∃ p, m = .edge p ∧ (p.rst = true ∨ p.start = true))

/-- 41 section 4 (control flow): from `BUSY` a step adds exactly 1 to the index; or it is a stall, a start that is ignored
or a wait for the host, and leaves the registers as they are; or it found no byte and ends in `(ERR, 0, 0)`; or it is an
edge with `rst` and ends in `(IDLE, 0, 0)`. The host's moves, and that a move which would start a decode is taken and
ignored, are the model's own (log entry 2). -/
def Obligations.IndexOnlyAdvancesByOne : Prop :=
  ∀ s t : State, s.ph = .busy → step s = .next t →
    (t.idx.toNat = s.idx.toNat + 1 ∧ t.idx.toNat ≤ 9 ∧ (t.ph = .busy ∨ t.ph = .done)) ∨
    ((t.ph, t.acc, t.idx) = (s.ph, s.acc, s.idx) ∧ s.runsAlone = false ∧
      (s.host = [] ∨ ∃ m rest, s.host = m :: rest ∧
        ((∃ p, m = .edge p ∧ p.rst = false ∧ p.inValid = false) ∨ (∃ r, m = .decode r) ∨ ∃ r, m = .start r))) ∨
    ((t.ph, t.acc, t.idx) = (Phase.err, 0, 0) ∧
      ((s.runsAlone = true ∧ s.len ≤ s.idx.toNat) ∨
        (s.runsAlone = false ∧ ∃ p rest, s.host = .edge p :: rest ∧
          p.rst = false ∧ p.inValid = true ∧ p.inEnd = true))) ∨
    ((t.ph, t.acc, t.idx) = (Phase.idle, 0, 0) ∧ s.runsAlone = false ∧
      ∃ p rest, s.host = .edge p :: rest ∧ p.rst = true)

/-- 40 section 2 (width and overflow): below the bounds of a decode the shift and the addition never overflow and never
carry: they are exact in the natural numbers, and the addition is a bitwise or. -/
def Obligations.AccumulationNeverOverflows : Prop :=
  (∀ (acc : Acc) (p : Payload) (i : Nat), i ≤ 7 → acc.toNat < 2 ^ (7 * i) →
    (pushLead acc p).toNat = acc.toNat * 2 ^ 7 + p.toNat ∧ (pushLead acc p).toNat < 2 ^ (7 * (i + 1)) ∧
    pushLead acc p = (acc <<< 7) ||| p.setWidth 64) ∧
  ∀ (acc : Acc) (d : Byte), acc.toNat < 2 ^ 56 →
    (pushLast acc d).toNat = acc.toNat * 2 ^ 8 + d.toNat ∧
    pushLast acc d = (acc <<< 8) ||| d.setWidth 64

-- ==== The length forms of DECODE ====

/-- 30 section 2 (assembly of the value): every length form joins the payloads, the first the most significant, into an
unsigned number that is zero-extended to the accumulator (for `V9` it is 64 bits already), and the same number as a sum.
That a form completes from every state, `BUSY` included, is the model's inference (log entry 8), and so are the registers
`(DONE, acc, k)` it leaves, those of the byte steps' end (log entry 9). -/
def Obligations.LengthFormsJoinPayloads : Prop :=
  (∀ (a b c d e f g h : Payload) (i : Byte) (s : State),
    exec (.v1 a) s = .next { s with ph := .done, idx := 1, acc := a.setWidth 64 } ∧
    exec (.v2 a b) s = .next { s with ph := .done, idx := 2, acc := (a ++ b).setWidth 64 } ∧
    exec (.v3 a b c) s = .next { s with ph := .done, idx := 3, acc := (a ++ b ++ c).setWidth 64 } ∧
    exec (.v4 a b c d) s = .next { s with ph := .done, idx := 4, acc := (a ++ b ++ c ++ d).setWidth 64 } ∧
    exec (.v5 a b c d e) s = .next { s with ph := .done, idx := 5, acc := (a ++ b ++ c ++ d ++ e).setWidth 64 } ∧
    exec (.v6 a b c d e f) s =
      .next { s with ph := .done, idx := 6, acc := (a ++ b ++ c ++ d ++ e ++ f).setWidth 64 } ∧
    exec (.v7 a b c d e f g) s =
      .next { s with ph := .done, idx := 7, acc := (a ++ b ++ c ++ d ++ e ++ f ++ g).setWidth 64 } ∧
    exec (.v8 a b c d e f g h) s =
      .next { s with ph := .done, idx := 8, acc := (a ++ b ++ c ++ d ++ e ++ f ++ g ++ h).setWidth 64 } ∧
    exec (.v9 a b c d e f g h i) s =
      .next { s with ph := .done, idx := 9, acc := a ++ b ++ c ++ d ++ e ++ f ++ g ++ h ++ i }) ∧
  (∀ ps : List Payload, ps.length ≤ 8 →
    (assembleLead ps).toNat =
      ∑ j ∈ Finset.range ps.length, (ps.getD j 0).toNat * 2 ^ (7 * (ps.length - 1 - j))) ∧
  ∀ (ps : List Payload) (d : Byte), ps.length = 8 →
    (pushLast (assembleLead ps) d).toNat =
      (∑ j ∈ Finset.range 8, (ps.getD j 0).toNat * 2 ^ (7 * (7 - j) + 8)) + d.toNat

/-- 42 section 3 (the bit map): bit `j` of leading byte `i` of a form of `k <= 8` bytes lands at value bit
`7 * (k - 1 - i) + j` and the bits from `7k` up are 0; in `V9` it lands eight places higher, above the ninth byte. -/
def Obligations.PayloadBitMap : Prop :=
  (∀ (ps : List Payload) (i j : Nat), ps.length ≤ 8 → i < ps.length → j < 7 →
    (assembleLead ps).getLsbD (7 * (ps.length - 1 - i) + j) = (ps.getD i 0).getLsbD j) ∧
  (∀ (ps : List Payload) (n : Nat), ps.length ≤ 8 → 7 * ps.length ≤ n → (assembleLead ps).getLsbD n = false) ∧
  (∀ (ps : List Payload) (d : Byte) (i j : Nat), ps.length = 8 → i < 8 → j < 7 →
    (pushLast (assembleLead ps) d).getLsbD (7 * (7 - i) + 8 + j) = (ps.getD i 0).getLsbD j) ∧
  ∀ (ps : List Payload) (d : Byte) (j : Nat), ps.length = 8 → j < 8 →
    (pushLast (assembleLead ps) d).getLsbD j = d.getLsbD j

/-- 40 section 3 and 20 section 3 (no side effects): an instruction writes the three registers of the decode only: the
buffer, its length, the source and the host's moves are unchanged, and every address reads as before. That a byte class
outside `BUSY` changes nothing is log entry 7; that a length form completes in every phase and leaves `DONE` with its count
is log entries 8 and 9. -/
def Obligations.InstructionFrame : Prop :=
  ∀ (i : Instr) (s t : State), exec i s = .next t →
    t.src = s.src ∧ t.mem = s.mem ∧ t.len = s.len ∧ t.host = s.host ∧
    (∀ a, Memory.read t.mem a = Memory.read s.mem a) ∧ (∀ a, memRead t.toBuffer a = memRead s.toBuffer a) ∧
    (i.isByteClass = false → t.ph = .done ∧ t.idx.toNat = i.size) ∧
    (i.isByteClass = true → s.ph ≠ .busy → t = s) ∧
    (i.isByteClass = true → s.ph = .busy → t.idx.toNat = s.idx.toNat + 1)

-- ==== The operation DECODE as a function ====

/-- 40 R85: on `OK` the count is in 1 to 9: one more than the least index in 0 to 7 whose byte has bit 7 clear, and 9
when there is no such index. -/
def Obligations.CountOfBytesExamined : Prop :=
  ∀ (buf : List Byte) (v : Int) (k : Nat), decodeOperation buf = .ok v k →
    1 ≤ k ∧ k ≤ 9 ∧
    (∀ t, t ≤ 7 → t < buf.length → contBit (buf.getD t 0) = false → (∀ j < t, contBit (buf.getD j 0) = true) →
      k = t + 1) ∧
    ((¬ ∃ t, t ≤ 7 ∧ t < buf.length ∧ contBit (buf.getD t 0) = false) → k = 9)

/-- 40 section 3 (bounded consumption): the count exceeds neither 9 nor the length of the buffer, and the bytes from
index 9 on are no input of the decode. -/
def Obligations.BoundedConsumption : Prop :=
  (∀ (buf : List Byte) (v : Int) (k : Nat), decodeOperation buf = .ok v k → k ≤ min buf.length 9) ∧
  ∀ buf : List Byte, decodeOperation (buf.take 9) = decodeOperation buf

/-- 40 section 3 (truncation): if a buffer decodes well with count `k`, then its first `j < k` bytes alone are answered
with `TruncatedInput`, never with a value. -/
def Obligations.ShorterBufferIsTruncated : Prop :=
  ∀ (buf : List Byte) (v : Int) (k j : Nat), decodeOperation buf = .ok v k → j < k →
    decodeOperation (buf.take j) = .error .truncatedInput

/-- 30 R72: the bytes from index `bytes_consumed` on are not part of the varint: whatever they are, they change neither
the value nor the count, and their presence is no error. -/
def Obligations.TrailingBytesHaveNoInfluence : Prop :=
  ∀ (buf tail : List Byte) (v : Int) (k : Nat), decodeOperation buf = .ok v k →
    decodeOperation (buf.take k ++ tail) = .ok v k

/-- 40 R90: a single byte with its high bit clear decodes to its own number, with count 1. -/
def Obligations.SingleByteLaw : Prop :=
  ∀ b : Byte, b.getLsbD 7 = false → decodeOperation [b] = .ok b.toNat 1

/-- 40 section 2 (signedness, range): with a count `k` of 1 to 8 the value is in 0 to `2^(7k) - 1`, and both ends occur;
with 9 it is a signed 64-bit integer, both ends of whose range occur, negative exactly when bit 6 of byte 0 is set. -/
def Obligations.ValueRangeByLength : Prop :=
  (∀ (buf : List Byte) (v : Int) (k : Nat), decodeOperation buf = .ok v k →
    (k ≤ 8 → 0 ≤ v ∧ v < 2 ^ (7 * k)) ∧
    (k = 9 → -2 ^ 63 ≤ v ∧ v < 2 ^ 63 ∧ (v < 0 ↔ (buf.getD 0 0).getLsbD 6 = true))) ∧
  (∀ k : Nat, 1 ≤ k → k ≤ 8 →
    decodeOperation (List.replicate (k - 1) 0x80 ++ [0x00]) = .ok 0 k ∧
    decodeOperation (List.replicate (k - 1) 0xFF ++ [0x7F]) = .ok (2 ^ (7 * k) - 1) k) ∧
  decodeOperation (0xC0 :: List.replicate 7 0x80 ++ [0x00]) = .ok (-2 ^ 63) 9 ∧
  decodeOperation (0xBF :: List.replicate 8 0xFF) = .ok (2 ^ 63 - 1) 9

-- ==== The closed form, profile W and the canonical encoder ====

/-- 42 sections 2 and 3 (agreement): the closed form over a window that carries the buffer's first bytes, whatever its
other lanes hold, gives the outcome, the value and the count of DECODE. -/
def Obligations.ClosedFormAgreesWithDecode : Prop :=
  ∀ (buf : List Byte) (win : Window), (∀ i < min buf.length 9, buf[i]? = some (lane win i)) →
    decodeOperation buf =
      match closedForm win (min buf.length 9) with
      | some (acc, k) => .ok (s64 acc) k
      | none => .error .truncatedInput

/-- 43 section 2 (profile W): with the buffer's first bytes on the lanes and `min(len, 9)` on `avail`, the outputs are
DECODE's value, count and error, zeros beside the error. -/
def Obligations.WindowProfileComputesDecode : Prop :=
  ∀ (buf : List Byte) (win : Window) (avail : BitVec 4), (∀ i < min buf.length 9, buf[i]? = some (lane win i)) →
    avail.toNat = min buf.length 9 →
    match decodeOperation buf with
    | .ok v k =>
      (profileW win avail).err = false ∧ s64 (profileW win avail).value = v ∧
      (profileW win avail).consumed.toNat = k
    | .error _ => profileW win avail = { value := 0, consumed := 0, err := true }

/-- 43 R147: `avail` of 10 to 15 is taken as 9. -/
def Obligations.WindowCountSaturates : Prop :=
  ∀ (win : Window) (avail : BitVec 4), 10 ≤ avail.toNat → profileW win avail = profileW win 9

/-- 42 section 3 (what the result does not depend on): two windows that agree on the lanes below `avail` give the same
outputs, and when the decode is `OK` with count `k`, so do two that agree on the lanes below `k`. -/
def Obligations.AbsentLanesHaveNoInfluence : Prop :=
  (∀ (win win' : Window) (avail : BitVec 4), (∀ i < lanesAvailable avail, lane win i = lane win' i) →
    profileW win avail = profileW win' avail) ∧
  ∀ (win win' : Window) (avail : BitVec 4) (acc : Acc) (k : Nat),
    closedForm win (lanesAvailable avail) = some (acc, k) → (∀ i < k, lane win i = lane win' i) →
    profileW win' avail = { value := acc, consumed := BitVec.ofNat 4 k, err := false }

/-- 42 section 4 (round trips): DECODE of the canonical encoding of a signed 64-bit integer, whatever follows it, gives
that integer and the encoding's length. -/
def Obligations.CanonicalEncodingRoundTrips : Prop :=
  ∀ (v : Int) (tail : List Byte), -2 ^ 63 ≤ v → v < 2 ^ 63 →
    decodeOperation (encodeValue v ++ tail) = .ok v (encodeValue v).length

/-- 42 section 4: the canonical encoding is the shortest: what decodes to `v` takes at least as many bytes, and as many
exactly when it is the canonical encoding. -/
def Obligations.CanonicalEncodingIsShortest : Prop :=
  ∀ (buf : List Byte) (v : Int) (k : Nat), decodeOperation buf = .ok v k →
    (encodeValue v).length ≤ k ∧ (k = (encodeValue v).length ↔ buf.take k = encodeValue v)

/-- 42 section 4 (canonical lengths and the count of encodings): the length by range of the value, and exactly one
encoding of each length from the canonical one to 9. -/
def Obligations.OneEncodingPerLength : Prop :=
  (∀ v : Int, -2 ^ 63 ≤ v → v < 2 ^ 63 →
    (v < 0 ∨ 2 ^ 56 ≤ v → (encodeValue v).length = 9) ∧
    (0 ≤ v → v < 2 ^ 7 → (encodeValue v).length = 1) ∧
    ∀ c : Nat, 2 ≤ c → c ≤ 8 → 2 ^ (7 * (c - 1)) ≤ v → v < 2 ^ (7 * c) → (encodeValue v).length = c) ∧
  ∀ (v : Int) (k : Nat), -2 ^ 63 ≤ v → v < 2 ^ 63 → (encodeValue v).length ≤ k → k ≤ 9 →
    ∃! buf : List Byte, buf.length = k ∧ decodeOperation buf = .ok v k

-- ==== The machine ====

/-- A step runs the decoded instruction: a byte step executes the class of the byte at `idx`; the move `decode` executes
the length form the buffer begins with; an edge of profile S executes the class of the byte presented. Around `exec`
stand only the hand-over of the buffer and the move's leaving the queue (log entries 1 and 2). -/
def Obligations.StepRunsDecodedInstruction : Prop :=
  (∀ (s : State) (b : Byte) (i : Instr), s.runsAlone = true → s.idx.toNat < s.len →
    Memory.read s.mem s.idx.toNat = some b → decodeByte s.idx.toNat b = .ok i → step s = exec i s) ∧
  (∀ (s : State) (r : Request) (rest : List HostMove) (i : Instr) (tail : List Byte), s.ph ≠ .busy → r.truthful →
    s.host = .decode r :: rest → decodeVarint r.buffer = .ok (i, tail) →
    step s = exec i ((s.setHost rest).handOver r)) ∧
  ∀ (s : State) (p : Pins) (rest : List HostMove) (i : Instr), s.ph = .busy → s.src = .stream →
    s.host = .edge p :: rest → p.rst = false → p.inValid = true → p.inEnd = false →
    decodeByte s.idx.toNat p.inByte = .ok i → step s = exec i (s.setHost rest)

/-- An instruction placed at the fetch is the one that runs, from every state, on its own level (log entry 12); that exec of
a length form answers a next state in every phase, `BUSY` included, is log entry 8. -/
def Obligations.PlacedInstructionRuns : Prop :=
  (∀ (s : State) (b : Byte) (i : Instr), decodeByte 0 b = .ok i →
    step (s.withFetchWord 8 b.toNat) = exec i (s.withFetchWord 8 b.toNat) ∧
    decodeTableWord 8 b.toNat = some i) ∧
  ∀ (s : State) (k w : Nat) (i : Instr), 2 ≤ k → decodeTableWord (8 * k) w = some i →
    ∃ t u, step (s.withFetchWord (8 * k) w) = .next t ∧ exec i s = .next u ∧
      (t.ph, t.acc, t.idx) = (u.ph, u.acc, u.idx) ∧ t.host = s.host

/-- 43 section 1 (the transaction): from every state that is not in the middle of a decode, the move `decode` ends in one
step with the result of DECODE on the buffer handed over, and with the registers of that result, which are the model's
choice (log entry 9).
The host's moves and the field `src` are the model's own (log entry 2). -/
def Obligations.TransactionComputesDecode : Prop :=
  ∀ (s : State) (r : Request) (rest : List HostMove), s.ph ≠ .busy → r.truthful → s.host = .decode r :: rest →
    ∃ t, step s = .next t ∧ t.result = some (decodeOperation r.buffer) ∧
      t.host = rest ∧ t.mem = Memory.ofBytes r.bytes ∧ t.len = r.len ∧
      (t.ph = .done ∧ t.errFlag = false ∨ t.ph = .err ∧ t.acc = 0 ∧ t.idx = 0)

/-- 41 section 4 (agreement and step counts): `START` on a buffer and then byte steps, exactly as many as the spec
counts, end with the result of DECODE; before the last of them the decode is still running.
The host's moves and the field `src` are the model's own (log entry 2). -/
def Obligations.ByteStepsComputeDecode : Prop :=
  ∀ (s : State) (r : Request) (rest : List HostMove), s.ph ≠ .busy → r.truthful → s.host = .start r :: rest →
    (∃ t, run (stepCount r.buffer) s = .next t ∧ t.result = some (decodeOperation r.buffer) ∧ t.host = rest) ∧
    ∀ n, 1 ≤ n → n < stepCount r.buffer → ∃ u, run n s = .next u ∧ u.ph = .busy ∧ u.idx.toNat = n - 1

/-- The two levels meet (41 section 4): the whole operation in one step, and `START` with its byte steps, lead to the same
state. The spec gives the transaction no registers of its own: that it leaves those of the byte steps is the model's choice
(log entry 9).
The host's moves and the field `src` are the model's own (log entry 2). -/
def Obligations.BigStepEqualsSmallSteps : Prop :=
  ∀ (s : State) (r : Request) (rest : List HostMove), s.ph ≠ .busy → r.truthful →
    run (stepCount r.buffer) (s.setHost (.start r :: rest)) = step (s.setHost (.decode r :: rest))

/-- 43 section 3 (profile S computes DECODE): after a `START` edge, a schedule that presents the buffer's bytes in order,
each once, and its end when the index reaches it, at least until the decode has ended and with any stalls between them, ends
with the result of DECODE on those bytes.
The host's moves and the field `src` are the model's own (log entry 2). -/
def Obligations.SerialScheduleComputesDecode : Prop :=
  ∀ (s : State) (p : Pins) (ps : List Pins) (rest : List HostMove) (buf : List Byte),
    s.ph ≠ .busy → p.rst = false → p.start = true → (∀ q ∈ ps, q.rst = false ∧ q.start = false) →
    presented ps <+: buf.map some ++ [none] → byteStepCount buf ≤ (presented ps).length → s.host = .edge p :: (ps.map .edge ++ rest) →
    ∃ t, run (ps.length + 1) s = .next t ∧ t.result = some (decodeOperation buf) ∧ t.host = rest ∧
      (t.doneFlag = true ∨ t.errFlag = true)

/-- 43 R149: the event of a step of profile S, in its priority. -/
def Obligations.SerialEventPriority : Prop :=
  ∀ (p : Pins) (ph : Phase),
    (p.rst = true → event p ph = .reset) ∧
    (p.rst = false → ph ≠ .busy → p.start = true → event p ph = .start) ∧
    (p.rst = false → ph = .busy → p.inValid = true → p.inEnd = false → event p ph = .byte p.inByte) ∧
    (p.rst = false → ph = .busy → p.inValid = true → p.inEnd = true → event p ph = .endOfBuffer) ∧
    (p.rst = false → ph = .busy → p.inValid = false → event p ph = .nothing) ∧
    (p.rst = false → ph ≠ .busy → p.start = false → event p ph = .nothing)

/-- 43 R150: the transition of profile S, row by row.
The host's moves and the field `src` are the model's own (log entry 2). -/
def Obligations.SerialTransitionTable : Prop :=
  ∀ (p : Pins) (s : State),
    (event p s.ph = .reset → edge p s = .next { s with ph := .idle, acc := 0, idx := 0 }) ∧
    (event p s.ph = .start → edge p s = .next { s with ph := .busy, acc := 0, idx := 0, src := .stream }) ∧
    (∀ b : Byte, event p s.ph = .byte b →
      (s.idx.toNat ≤ 7 → b.getLsbD 7 = true →
        edge p s = .next { s with ph := .busy, acc := (s.acc <<< 7) + (b.setWidth 7).setWidth 64,
                                  idx := s.idx + 1 }) ∧
      (s.idx.toNat ≤ 7 → b.getLsbD 7 = false →
        edge p s = .next { s with ph := .done, acc := (s.acc <<< 7) + (b.setWidth 7).setWidth 64,
                                  idx := s.idx + 1 }) ∧
      (s.idx = 8 →
        edge p s = .next { s with ph := .done, acc := (s.acc <<< 8) + b.setWidth 64, idx := 9 })) ∧
    (event p s.ph = .endOfBuffer → s.idx.toNat ≤ 8 →
      edge p s = .next { s with ph := .err, acc := 0, idx := 0 }) ∧
    (event p s.ph = .nothing → edge p s = .next s)

/-- 43 R151: the outputs of profile S are functions of `(ph, acc, idx)`; they hold until the next `START` or `RESET`, and
are all 0 after `RESET`. -/
def Obligations.SerialOutputsFollowState : Prop :=
  (∀ s : State,
    ((outputs s).inReady = true ↔ s.ph = .busy) ∧ ((outputs s).done = true ↔ s.ph = .done) ∧
    ((outputs s).err = true ↔ s.ph = .err) ∧
    (outputs s).value = (if s.ph = .done then s.acc else 0) ∧
    (outputs s).consumed = (if s.ph = .done then s.idx else 0)) ∧
  (∀ s t : State, (s.ph, s.acc, s.idx) = (t.ph, t.acc, t.idx) → outputs s = outputs t) ∧
  (∀ (s t : State) (p : Pins), s.ph ≠ .busy → event p s.ph ≠ .start → event p s.ph ≠ .reset →
    edge p s = .next t → outputs t = outputs s) ∧
  ∀ (s t : State) (p : Pins), event p s.ph = .reset → edge p s = .next t →
    outputs t = { inReady := false, done := false, err := false, value := 0, consumed := 0 }

/-- 43 section 3 and the model's host moves (log entry 2): a start that comes while a decode runs on the stream is
ignored, and the running decode keeps its registers and its buffer. -/
def Obligations.StartWhileBusyIsIgnored : Prop :=
  (∀ (s : State) (r : Request) (rest : List HostMove), s.ph = .busy → s.src = .stream →
    (s.host = .decode r :: rest ∨ s.host = .start r :: rest) → step s = .next { s with host := rest }) ∧
  ∀ (s : State) (p : Pins), s.ph = .busy → p.rst = false → p.inValid = false → edge p s = .next s

/-- 10 R26: a decode's result is a function of its buffer alone: from two states that hold whatever an earlier decode
left, the same request leads to the same result and the same registers (those of the transaction are log entry 9).
The host's moves and the field `src` are the model's own (log entry 2). -/
def Obligations.ResultForgetsEarlierDecodes : Prop :=
  ∀ (s s' : State) (r : Request) (rest rest' : List HostMove), s.ph ≠ .busy → s'.ph ≠ .busy →
    s.host = .decode r :: rest → s'.host = .decode r :: rest' →
    ∀ t, step s = .next t → ∃ t', step s' = .next t' ∧ t'.ph = t.ph ∧ t'.acc = t.acc ∧ t'.idx = t.idx ∧
      t'.result = t.result

/-- 20 sections 3 and 4: the block writes no memory: a step leaves the buffer and its length alone, unless, outside a
running decode, the host hands over the next buffer.
The host's moves and the field `src` are the model's own (log entry 2). -/
def Obligations.BufferIsNeverWritten : Prop :=
  ∀ s t : State, step s = .next t →
    (t.mem = s.mem ∧ t.len = s.len) ∨
    (s.ph ≠ .busy ∧ ∃ r rest, (s.host = .decode r :: rest ∨ s.host = .start r :: rest) ∧
      t.mem = Memory.ofBytes r.bytes ∧ t.len = r.len)

/-- The invariant (10 section 5 and the canonical form of memory) holds at reset. -/
def Obligations.ResetMeetsInvariant : Prop :=
  StateInv State.reset

/-- The invariant (10 section 5 and the canonical form of memory) is kept by every step, from every state that meets
it. -/
def Obligations.StepKeepsInvariant : Prop :=
  ∀ s t : State, StateInv s → step s = .next t → StateInv t

/-- 10 section 5: in a state that meets the invariant, bit 63 of the accumulator can be set only at the good end of a
nine-byte decode. -/
def Obligations.TopBitOnlyAfterNineBytes : Prop :=
  ∀ s : State, StateInv s → s.acc.getLsbD 63 = true → s.ph = .done ∧ s.idx = 9

/-- 41 section 1 and 60 section 4 (total, never stuck): with a host that states its lengths truthfully, a state that
meets the invariant always has a next state, from which the same holds: the block neither faults nor refuses. -/
def Obligations.TruthfulHostIsNeverStopped : Prop :=
  ∀ s : State, StateInv s → s.truthful → ∃ t, step s = .next t ∧ StateInv t ∧ t.truthful

/-- Where the model stops, by name (log entries 4, 5 and 6): an index of 9 to 15 in `BUSY`, on the buffer, and on the
stream for a byte and for the end; a byte class at an index where it does not exist; a `len` larger than what the host
supplied, where a byte step or the move `decode` needs a byte beyond it. -/
def Obligations.ModelStopsByName : Prop :=
  (∀ s : State, s.runsAlone = true → 9 ≤ s.idx.toNat → step s = .fault .indexOutOfRange) ∧
  (∀ (s : State) (p : Pins) (rest : List HostMove), s.ph = .busy → s.src = .stream → s.host = .edge p :: rest →
    p.rst = false → p.inValid = true → 9 ≤ s.idx.toNat → step s = .fault .indexOutOfRange) ∧
  (∀ (s : State) (i : Instr), s.ph = .busy → i.isByteClass = true → i.legalAt s.idx.toNat = false →
    exec i s = .refused .wrongIndex) ∧
  (∀ s : State, s.runsAlone = true → s.idx.toNat ≤ 8 → s.idx.toNat < s.len →
    Memory.read s.mem s.idx.toNat = none → step s = .refused .byteNotSupplied) ∧
  ∀ (s : State) (r : Request) (rest : List HostMove), s.ph ≠ .busy → s.host = .decode r :: rest →
    r.bytes.length < r.len → r.bytes.length ≤ 8 → (∀ b ∈ r.bytes, contBit b = true) →
    step s = .refused .byteNotSupplied

/-- 10 R29: the buffer and its length are arguments of the block's step relation, whose state is `(ph, acc, idx)` alone: on
a decode from the buffer, the machine's step is that relation with the buffer the host handed over, which it neither writes
nor lets the host change; a read inside the buffer has the one answer the buffer gives. Where the machine carries the
arguments is the model's own (log entry 1). -/
def Obligations.BufferIsArgumentOfBlockStep : Prop :=
  (∀ s : State, s.runsAlone = true → step s = s.lift (s.toBlock.step s.toBuffer)) ∧
  (∀ s t : State, s.runsAlone = true → step s = .next t →
    t.toBuffer = s.toBuffer ∧ s.toBlock.step s.toBuffer = .next t.toBlock) ∧
  (∀ (buf : Buffer) (b : Block), b.ph ≠ .busy → b.step buf = .next b) ∧
  ∀ (buf : Buffer) (i : Nat) (b : Byte), i < buf.len → Memory.read buf.mem i = some b → memRead buf i = .byte b
end

