-- ==== Sys2Proof/Laws/Decode.lean ====
section
/-! SUPPORT. The decoder's and the encoder's field lemmas. -/

namespace Sys2Proof

@[simp] theorem contBit_contByte : ∀ p : Payload, contBit (contByte p) = true := by decide
@[simp] theorem contBit_termByte : ∀ p : Payload, contBit (termByte p) = false := by decide
@[simp] theorem payload_contByte : ∀ p : Payload, payload (contByte p) = p := by decide
@[simp] theorem payload_termByte : ∀ p : Payload, payload (termByte p) = p := by decide

/-- A byte with bit 7 set is the continuation byte of its payload. -/
theorem contByte_payload : ∀ b : Byte, contBit b = true → contByte (payload b) = b := by decide

/-- A byte with bit 7 clear is the terminating byte of its payload. -/
theorem termByte_payload : ∀ b : Byte, contBit b = false → termByte (payload b) = b := by decide

/-- The continuation bit is the bit of the mask `0x80` (00 R7). -/
theorem contBit_iff_mask : ∀ b : Byte, contBit b = true ↔ b &&& Config.contMask = Config.contMask := by decide

/-- The payload is what the mask `0x7F` keeps (00 R7). -/
theorem payload_toNat_mask : ∀ b : Byte, (payload b).toNat = (b &&& Config.payloadMask).toNat := by decide

/-- The classes of a leading byte and of the ninth byte. -/
theorem decodeByte_cont {idx : Nat} {b : Byte} (h : idx < 8) (hb : contBit b = true) :
    decodeByte idx b = .ok (.cont (payload b)) := by
  simp [decodeByte, h, hb]

theorem decodeByte_term {idx : Nat} {b : Byte} (h : idx < 8) (hb : contBit b = false) :
    decodeByte idx b = .ok (.term (payload b)) := by
  simp [decodeByte, h, hb]

theorem decodeByte_last (b : Byte) : decodeByte 8 b = .ok (.last b) := by
  simp [decodeByte]

/-- Everything the decoder of one byte can answer (30 R63, R64). -/
theorem decodeByte_cases (idx : Nat) (b : Byte) :
    (idx < 8 ∧ contBit b = true ∧ decodeByte idx b = .ok (.cont (payload b))) ∨
    (idx < 8 ∧ contBit b = false ∧ decodeByte idx b = .ok (.term (payload b))) ∨
    (idx = 8 ∧ decodeByte idx b = .ok (.last b)) ∨
    (8 < idx ∧ decodeByte idx b = .error .noFormat) := by
  rcases Nat.lt_trichotomy idx 8 with h | rfl | h
  · cases hb : contBit b
    · exact .inr (.inl ⟨h, rfl, decodeByte_term h hb⟩)
    · exact .inl ⟨h, rfl, decodeByte_cont h hb⟩
  · exact .inr (.inr (.inl ⟨rfl, decodeByte_last b⟩))
  · exact .inr (.inr (.inr ⟨h, by simp [decodeByte, Nat.not_lt.2 h.le, h.ne']⟩))

/-- The bytes of a number, one at a time from the most significant. -/
@[simp] theorem bytesOfWord_length (k w : Nat) : (bytesOfWord k w).length = k := by
  induction k with
  | zero => rfl
  | succ k ih => simp [bytesOfWord, ih]

end Sys2Proof
end

