-- ==== Sys2Proof/Laws/State.lean ====
section
/-! SUPPORT. The state's update laws: one lemma per field per update. -/

namespace Sys2Proof.Machine

@[simp] theorem State.setRegs_ph (s : State) (p : Phase) (a : Acc) (k : Index) : (s.setRegs p a k).ph = p := rfl
@[simp] theorem State.setRegs_acc (s : State) (p : Phase) (a : Acc) (k : Index) : (s.setRegs p a k).acc = a := rfl
@[simp] theorem State.setRegs_idx (s : State) (p : Phase) (a : Acc) (k : Index) : (s.setRegs p a k).idx = k := rfl
@[simp] theorem State.setRegs_src (s : State) (p : Phase) (a : Acc) (k : Index) : (s.setRegs p a k).src = s.src := rfl
@[simp] theorem State.setRegs_mem (s : State) (p : Phase) (a : Acc) (k : Index) : (s.setRegs p a k).mem = s.mem := rfl
@[simp] theorem State.setRegs_len (s : State) (p : Phase) (a : Acc) (k : Index) : (s.setRegs p a k).len = s.len := rfl
@[simp] theorem State.setRegs_host (s : State) (p : Phase) (a : Acc) (k : Index) : (s.setRegs p a k).host = s.host := rfl

@[simp] theorem State.handOver_ph (s : State) (r : Request) : (s.handOver r).ph = s.ph := rfl
@[simp] theorem State.handOver_acc (s : State) (r : Request) : (s.handOver r).acc = s.acc := rfl
@[simp] theorem State.handOver_idx (s : State) (r : Request) : (s.handOver r).idx = s.idx := rfl
@[simp] theorem State.handOver_src (s : State) (r : Request) : (s.handOver r).src = .buffer := rfl
@[simp] theorem State.handOver_mem (s : State) (r : Request) : (s.handOver r).mem = Memory.ofBytes r.bytes := rfl
@[simp] theorem State.handOver_len (s : State) (r : Request) : (s.handOver r).len = r.len := rfl
@[simp] theorem State.handOver_host (s : State) (r : Request) : (s.handOver r).host = s.host := rfl

@[simp] theorem State.setHost_ph (s : State) (l : List HostMove) : (s.setHost l).ph = s.ph := rfl
@[simp] theorem State.setHost_acc (s : State) (l : List HostMove) : (s.setHost l).acc = s.acc := rfl
@[simp] theorem State.setHost_idx (s : State) (l : List HostMove) : (s.setHost l).idx = s.idx := rfl
@[simp] theorem State.setHost_src (s : State) (l : List HostMove) : (s.setHost l).src = s.src := rfl
@[simp] theorem State.setHost_mem (s : State) (l : List HostMove) : (s.setHost l).mem = s.mem := rfl
@[simp] theorem State.setHost_len (s : State) (l : List HostMove) : (s.setHost l).len = s.len := rfl
@[simp] theorem State.setHost_host (s : State) (l : List HostMove) : (s.setHost l).host = l := rfl

@[simp] theorem State.startDecode_ph (s : State) (src : Source) : (s.startDecode src).ph = .busy := rfl
@[simp] theorem State.startDecode_acc (s : State) (src : Source) : (s.startDecode src).acc = 0 := rfl
@[simp] theorem State.startDecode_idx (s : State) (src : Source) : (s.startDecode src).idx = 0 := rfl
@[simp] theorem State.startDecode_src (s : State) (src : Source) : (s.startDecode src).src = src := rfl
@[simp] theorem State.startDecode_mem (s : State) (src : Source) : (s.startDecode src).mem = s.mem := rfl
@[simp] theorem State.startDecode_len (s : State) (src : Source) : (s.startDecode src).len = s.len := rfl
@[simp] theorem State.startDecode_host (s : State) (src : Source) : (s.startDecode src).host = s.host := rfl

@[simp] theorem State.raiseTruncated_ph (s : State) : (s.raiseTruncated).ph = .err := rfl
@[simp] theorem State.raiseTruncated_acc (s : State) : (s.raiseTruncated).acc = 0 := rfl
@[simp] theorem State.raiseTruncated_idx (s : State) : (s.raiseTruncated).idx = 0 := rfl
@[simp] theorem State.raiseTruncated_src (s : State) : (s.raiseTruncated).src = s.src := rfl
@[simp] theorem State.raiseTruncated_mem (s : State) : (s.raiseTruncated).mem = s.mem := rfl
@[simp] theorem State.raiseTruncated_len (s : State) : (s.raiseTruncated).len = s.len := rfl
@[simp] theorem State.raiseTruncated_host (s : State) : (s.raiseTruncated).host = s.host := rfl

@[simp] theorem State.resetRegs_ph (s : State) : (s.resetRegs).ph = .idle := rfl
@[simp] theorem State.resetRegs_acc (s : State) : (s.resetRegs).acc = 0 := rfl
@[simp] theorem State.resetRegs_idx (s : State) : (s.resetRegs).idx = 0 := rfl
@[simp] theorem State.resetRegs_src (s : State) : (s.resetRegs).src = s.src := rfl
@[simp] theorem State.resetRegs_mem (s : State) : (s.resetRegs).mem = s.mem := rfl
@[simp] theorem State.resetRegs_len (s : State) : (s.resetRegs).len = s.len := rfl
@[simp] theorem State.resetRegs_host (s : State) : (s.resetRegs).host = s.host := rfl

@[simp] theorem State.lift_next (s : State) (b : Block) :
    s.lift (.next b) = .next (s.setRegs b.ph b.acc b.idx) := rfl
@[simp] theorem State.lift_fault (s : State) (f : Fault) : s.lift (.fault f) = .fault f := rfl
@[simp] theorem State.lift_refused (s : State) (r : Refusal) : s.lift (.refused r) = .refused r := rfl
@[simp] theorem State.setRegs_toBuffer (s : State) (p : Phase) (a : Acc) (k : Index) :
    (s.setRegs p a k).toBuffer = s.toBuffer := rfl
@[simp] theorem State.setHost_toBuffer (s : State) (l : List HostMove) : (s.setHost l).toBuffer = s.toBuffer := rfl

/-- Two states with equal fields are equal. -/
theorem State.ext_fields {s t : State} (ph : s.ph = t.ph) (acc : s.acc = t.acc) (idx : s.idx = t.idx)
    (src : s.src = t.src) (mem : s.mem = t.mem) (len : s.len = t.len) (host : s.host = t.host) : s = t := by
  obtain ⟨⟨_, _, _⟩, ⟨_, _⟩, _, _⟩ := s
  obtain ⟨⟨_, _, _⟩, ⟨_, _⟩, _, _⟩ := t
  simp_all

/-- The block runs alone exactly when it is in `BUSY` on its buffer. -/
theorem State.runsAlone_iff (s : State) : s.runsAlone = true ↔ s.ph = .busy ∧ s.src = .buffer := by
  simp [State.runsAlone]

/-- Outside `BUSY` the block does not run alone. -/
theorem State.runsAlone_of_not_busy {s : State} (h : s.ph ≠ .busy) : s.runsAlone = false := by
  simp [State.runsAlone, h]

end Sys2Proof.Machine
end

