-- ==== Sys2Proof/Laws/Memory.lean ====
section
/-! SUPPORT. The buffer: reading back what the host supplied, the canonical form, and what `MemRead` answers. -/

namespace Sys2Proof.Machine

theorem Memory.read_ofBytesFrom (bs : List Byte) (a i : Nat) :
    Memory.read (Memory.ofBytesFrom a bs) (a + i) = bs[i]? := by
  induction bs generalizing a i with
  | nil => simp [Memory.ofBytesFrom, Memory.read, Memory.unlisted]
  | cons b bs ih =>
    cases i with
    | zero => simp [Memory.ofBytesFrom, Memory.read]
    | succ i =>
      have h := ih (a + 1) i
      rw [Nat.add_right_comm a 1 i] at h
      simp [Memory.ofBytesFrom, Memory.read, ← h, Nat.add_assoc]

/-- A buffer read at `i` gives the `i`-th byte supplied, and no value past the last one. -/
theorem Memory.read_ofBytes (bs : List Byte) (i : Nat) : Memory.read (Memory.ofBytes bs) i = bs[i]? := by
  simpa [Memory.ofBytes] using Memory.read_ofBytesFrom bs 0 i

theorem Memory.lt_of_mem_ofBytesFrom {bs : List Byte} {a : Nat} {c : Host.Cell}
    (h : c ∈ Memory.ofBytesFrom a bs) : a ≤ c.1 := by
  induction bs generalizing a with
  | nil => simp [Memory.ofBytesFrom] at h
  | cons b bs ih =>
    rcases List.mem_cons.1 h with rfl | h
    · exact le_rfl
    · exact (Nat.le_succ a).trans (ih h)

theorem Memory.rising_ofBytesFrom (bs : List Byte) (a : Nat) :
    Memory.rising (Memory.ofBytesFrom a bs) = true := by
  induction bs generalizing a with
  | nil => rfl
  | cons b bs ih =>
    simp only [Memory.ofBytesFrom, Memory.rising, Bool.and_eq_true, List.all_eq_true, decide_eq_true_eq]
    exact ⟨fun c hc => Memory.lt_of_mem_ofBytesFrom hc, ih (a + 1)⟩

/-- Handing a buffer over gives memory in canonical form: the one operation that makes a memory. -/
theorem Memory.wf_ofBytes (bs : List Byte) : Memory.wf (Memory.ofBytes bs) = true := by
  simp [Memory.wf, Memory.ofBytes, Memory.rising_ofBytesFrom, Memory.unlisted]

/-- The memory of the reset state is in canonical form. -/
theorem Memory.wf_reset : Memory.wf State.reset.mem = true := rfl

/-- Everything `MemRead` can answer (20 R41, 93 U6). -/
theorem memRead_cases (buf : Buffer) (i : Nat) :
    (buf.len ≤ i ∧ memRead buf i = .noByte) ∨
    (i < buf.len ∧ ∃ b, Memory.read buf.mem i = some b ∧ memRead buf i = .byte b) ∨
    (i < buf.len ∧ Memory.read buf.mem i = none ∧ memRead buf i = .notSupplied) := by
  unfold memRead
  by_cases h : i < buf.len
  · cases hr : Memory.read buf.mem i with
    | none => exact .inr (.inr ⟨h, rfl, by simp [h]⟩)
    | some b => exact .inr (.inl ⟨h, b, rfl, by simp [h]⟩)
  · exact .inl ⟨Nat.le_of_not_lt h, by simp [h]⟩

/-- `MemRead` past the end of the buffer finds no byte. -/
theorem memRead_noByte {buf : Buffer} {i : Nat} (h : buf.len ≤ i) : memRead buf i = .noByte := by
  simp [memRead, Nat.not_lt.2 h]

/-- `MemRead` inside the buffer gives the byte supplied. -/
theorem memRead_byte {buf : Buffer} {i : Nat} {b : Byte} (h : i < buf.len) (hr : Memory.read buf.mem i = some b) :
    memRead buf i = .byte b := by
  simp [memRead, h, hr]

end Sys2Proof.Machine
end

