-- ==== Sys2Proof/Laws/Operands.lean ====
section
/-! SUPPORT. The arithmetic of the accumulator as natural numbers (40 R82). -/

namespace Sys2Proof.Machine

/-- Pushing a leading payload never drops a bit. -/
theorem pushLead_toNat {acc : Acc} (h : acc.toNat < 2 ^ 56) (p : Payload) :
    (pushLead acc p).toNat = acc.toNat * 128 + p.toNat := by
  have hp := p.isLt
  simp only [pushLead, Config.leadShift, BitVec.toNat_add, BitVec.toNat_shiftLeft, Nat.shiftLeft_eq,
    BitVec.toNat_setWidth]
  omega

/-- Pushing the ninth byte never drops a bit. -/
theorem pushLast_toNat {acc : Acc} (h : acc.toNat < 2 ^ 56) (d : Byte) :
    (pushLast acc d).toNat = acc.toNat * 256 + d.toNat := by
  have hd := d.isLt
  simp only [pushLast, Config.lastShift, BitVec.toNat_add, BitVec.toNat_shiftLeft, Nat.shiftLeft_eq,
    BitVec.toNat_setWidth]
  omega

/-- After `j` leading bytes the accumulator is below `2^(7j)`: one more byte keeps that. -/
theorem pushLead_lt {acc : Acc} {i : Nat} (hi : i ≤ 7) (h : acc.toNat < 2 ^ (7 * i)) (p : Payload) :
    (pushLead acc p).toNat < 2 ^ (7 * (i + 1)) := by
  have hp := p.isLt
  have h56 : acc.toNat < 2 ^ 56 := h.trans_le (Nat.pow_le_pow_right (by norm_num) (by omega))
  rw [pushLead_toNat h56, Nat.mul_add, Nat.pow_add]
  omega

@[simp] theorem assembleLead_nil : assembleLead [] = 0 := rfl

@[simp] theorem assembleLead_append (ps : List Payload) (p : Payload) :
    assembleLead (ps ++ [p]) = pushLead (assembleLead ps) p := by
  simp [assembleLead]

/-- The payloads of up to eight leading bytes fit below `2^(7j)`. -/
theorem assembleLead_lt (ps : List Payload) (h : ps.length ≤ 8) :
    (assembleLead ps).toNat < 2 ^ (7 * ps.length) := by
  induction ps using List.reverseRecOn with
  | nil => simp
  | append_singleton ps p ih =>
    have hl : ps.length + 1 ≤ 8 := by simpa only [List.length_append, List.length_singleton] using h
    simpa using pushLead_lt (Nat.le_of_succ_le_succ hl) (ih (by omega)) p

end Sys2Proof.Machine
end

