-- ==== Sys2Proof/Laws/Meanings.lean ====
section
/-! SUPPORT. What the shared operations behind the meanings can do, and what an instruction can change. -/

namespace Sys2Proof.Machine

/-- Outside `BUSY` a byte class changes nothing (41 R107). -/
theorem Block.byteClass_not_busy {b : Block} (h : b.ph ≠ .busy) (legal : Bool) (ph : Phase) (acc : Acc) :
    Block.byteClass legal ph acc b = .next b := by
  simp [Block.byteClass, h]

/-- In `BUSY`, at an index where the class exists, the registers are written and the index advances by one. -/
theorem Block.byteClass_busy {b : Block} (h : b.ph = .busy) (ph : Phase) (acc : Acc) :
    Block.byteClass true ph acc b = .next { ph := ph, acc := acc, idx := b.idx + 1 } := by
  simp [Block.byteClass, h]

/-- In `BUSY`, at an index where the class does not exist, it is refused. -/
theorem Block.byteClass_wrong {b : Block} (h : b.ph = .busy) (ph : Phase) (acc : Acc) :
    Block.byteClass false ph acc b = .refused .wrongIndex := by
  simp [Block.byteClass, h]

/-- Everything a byte class can do to the machine. -/
theorem lift_byteClass_cases (legal : Bool) (ph : Phase) (acc : Acc) (s : State) :
    (s.ph ≠ .busy ∧ s.lift (Block.byteClass legal ph acc s.toBlock) = .next s) ∨
    (s.ph = .busy ∧ legal = true ∧
      s.lift (Block.byteClass legal ph acc s.toBlock) = .next (s.setRegs ph acc (s.idx + 1))) ∨
    (s.ph = .busy ∧ legal = false ∧ s.lift (Block.byteClass legal ph acc s.toBlock) = .refused .wrongIndex) := by
  by_cases hb : s.ph = .busy
  · cases legal
    · exact .inr (.inr ⟨hb, rfl, by rw [Block.byteClass_wrong hb]; rfl⟩)
    · exact .inr (.inl ⟨hb, rfl, by rw [Block.byteClass_busy hb]; rfl⟩)
  · exact .inl ⟨hb, by rw [Block.byteClass_not_busy hb]; rfl⟩

/-- A byte class that answers a next state did one of two things. -/
theorem lift_byteClass_next {legal : Bool} {ph : Phase} {acc : Acc} {s t : State}
    (h : s.lift (Block.byteClass legal ph acc s.toBlock) = .next t) :
    (s.ph ≠ .busy ∧ t = s) ∨ (s.ph = .busy ∧ legal = true ∧ t = s.setRegs ph acc (s.idx + 1)) := by
  rcases lift_byteClass_cases legal ph acc s with ⟨hb, he⟩ | ⟨hb, hl, he⟩ | ⟨-, -, he⟩ <;> rw [he] at h <;> cases h
  · exact .inl ⟨hb, rfl⟩
  · exact .inr ⟨hb, hl, rfl⟩

/-- An instruction writes the three registers of a decode and nothing else. -/
theorem exec_next {i : Instr} {s t : State} (h : exec i s = .next t) :
    ∃ ph acc idx, t = s.setRegs ph acc idx := by
  have byte : ∀ {legal ph acc}, s.lift (Block.byteClass legal ph acc s.toBlock) = .next t →
      ∃ ph acc idx, t = s.setRegs ph acc idx := by
    intro legal ph acc hb
    rcases lift_byteClass_next hb with ⟨-, rfl⟩ | ⟨-, -, rfl⟩
    · exact ⟨t.ph, t.acc, t.idx, rfl⟩
    · exact ⟨_, _, _, rfl⟩
  have form : ∀ {acc k}, finishDecode acc k s = .next t → ∃ ph acc idx, t = s.setRegs ph acc idx :=
    fun hf => ⟨_, _, _, (Host.Outcome.next.inj hf).symm⟩
  cases i
  case cont => exact byte h
  case term => exact byte h
  case last => exact byte h
  all_goals exact form h

/-- No instruction ends in a fault: a byte class stops by the refusal `wrongIndex` only, a length form never. -/
theorem exec_cases (i : Instr) (s : State) :
    (∃ t, exec i s = .next t) ∨ (i.isByteClass = true ∧ s.ph = .busy ∧ exec i s = .refused .wrongIndex) := by
  have byte : ∀ legal ph acc, (∃ t, s.lift (Block.byteClass legal ph acc s.toBlock) = .next t) ∨
      (s.ph = .busy ∧ s.lift (Block.byteClass legal ph acc s.toBlock) = .refused .wrongIndex) := by
    intro legal ph acc
    rcases lift_byteClass_cases legal ph acc s with ⟨-, he⟩ | ⟨-, -, he⟩ | ⟨hb, -, he⟩
    · exact .inl ⟨_, he⟩
    · exact .inl ⟨_, he⟩
    · exact .inr ⟨hb, he⟩
  cases i
  case cont => exact (byte _ _ _).imp id (fun h => ⟨rfl, h⟩)
  case term => exact (byte _ _ _).imp id (fun h => ⟨rfl, h⟩)
  case last => exact (byte _ _ _).imp id (fun h => ⟨rfl, h⟩)
  all_goals exact .inl ⟨_, rfl⟩

/-- A fetched byte that is an instruction is legal at its index, so in `BUSY` it executes. -/
theorem exec_classified {idx : Nat} {b : Byte} {i : Instr} (h : decodeByte idx b = .ok i) :
    i.legalAt idx = true ∧ i.isByteClass = true := by
  rcases decodeByte_cases idx b with ⟨hi, -, hd⟩ | ⟨hi, -, hd⟩ | ⟨rfl, hd⟩ | ⟨-, hd⟩ <;>
    rw [hd] at h <;> cases h <;> simp [Instr.legalAt, Instr.isByteClass] <;> omega

end Sys2Proof.Machine
end

