-- ==== Sys2Proof/Laws/Run.lean ====
section
/-! SUPPORT. What a fetch, a clock edge, a move of the host and a step can do. -/

namespace Sys2Proof.Machine

/-- Everything a byte at an index can be (30 R64). -/
theorem classify_cases (idx : Nat) (b : Byte) :
    (idx < 8 ∧ contBit b = true ∧ classify idx b = .instr (.cont (payload b))) ∨
    (idx < 8 ∧ contBit b = false ∧ classify idx b = .instr (.term (payload b))) ∨
    (idx = 8 ∧ classify idx b = .instr (.last b)) ∨
    (8 < idx ∧ classify idx b = .outOfRange) := by
  rcases decodeByte_cases idx b with ⟨h, hb, hd⟩ | ⟨h, hb, hd⟩ | ⟨rfl, hd⟩ | ⟨h, hd⟩
  · exact .inl ⟨h, hb, by simp [classify, hd]⟩
  · exact .inr (.inl ⟨h, hb, by simp [classify, hd]⟩)
  · exact .inr (.inr (.inl ⟨rfl, by simp [classify, hd]⟩))
  · exact .inr (.inr (.inr ⟨h, by simp [classify, hd]⟩))

/-- `FETCH` with no byte at an index the decode wants. -/
theorem fetchByte_noByte {buf : Buffer} {idx : Index} (hi : idx.toNat ≤ 8) (hl : buf.len ≤ idx.toNat) :
    fetchByte buf idx = .noByte := by
  simp [fetchByte, Nat.lt_succ_of_le hi, memRead_noByte hl]

/-- `FETCH` of a byte the host supplied. -/
theorem fetchByte_byte {buf : Buffer} {idx : Index} {b : Byte} (hi : idx.toNat ≤ 8) (hl : idx.toNat < buf.len)
    (hr : Memory.read buf.mem idx.toNat = some b) : fetchByte buf idx = classify idx.toNat b := by
  simp [fetchByte, Nat.lt_succ_of_le hi, memRead_byte hl hr]

/-- A byte step wants an index of 0 to 8. -/
theorem fetchByte_outOfRange {buf : Buffer} {idx : Index} (hi : 8 < idx.toNat) : fetchByte buf idx = .outOfRange := by
  simp [fetchByte, Nat.not_lt.2 (show 9 ≤ idx.toNat from hi)]

/-- A byte is a byte class or nothing: no length form. -/
theorem classify_isByteClass {idx : Nat} {b : Byte} {i : Instr} (h : classify idx b = .instr i) :
    i.isByteClass = true := by
  rcases classify_cases idx b with ⟨-, -, hc⟩ | ⟨-, -, hc⟩ | ⟨-, hc⟩ | ⟨-, hc⟩ <;> rw [hc] at h <;> cases h <;> rfl

/-- No fetch of a byte yields a length form. -/
theorem fetchByte_isByteClass {buf : Buffer} {idx : Index} {i : Instr} (h : fetchByte buf idx = .instr i) :
    i.isByteClass = true := by
  unfold fetchByte at h
  split at h
  · rcases memRead_cases buf idx.toNat with ⟨-, hm⟩ | ⟨-, b, -, hm⟩ | ⟨-, -, hm⟩ <;> rw [hm] at h
    · cases h
    · exact classify_isByteClass h
    · cases h
  · cases h

/-- The index after a byte step, below 16, does not wrap. -/
theorem idx_succ_toNat {k : Index} (h : k.toNat ≤ 8) : (k + 1).toNat = k.toNat + 1 := by
  have one : (1 : Index).toNat = 1 := rfl
  rw [BitVec.toNat_add, one]
  omega

/-- In `BUSY`, a byte at an index of 0 to 8 executes: the registers after it (41 R103 to R105). -/
theorem afterFetch_classify {s : State} (hb : s.ph = .busy) (hi : s.idx.toNat ≤ 8) (b : Byte) :
    afterFetch (classify s.idx.toNat b) s = .next
      (if s.idx.toNat < 8 then
        s.setRegs (if contBit b then .busy else .done) (pushLead s.acc (payload b)) (s.idx + 1)
      else s.setRegs .done (pushLast s.acc b) (s.idx + 1)) := by
  rcases classify_cases s.idx.toNat b with ⟨h, hc, he⟩ | ⟨h, hc, he⟩ | ⟨h, he⟩ | ⟨h, -⟩
  · simp [afterFetch, he, exec, execCont, Block.cont, Block.byteClass, hb, h, hc]
  · simp [afterFetch, he, exec, execTerm, Block.term, Block.byteClass, hb, h, hc]
  · rw [he]; simp [afterFetch, exec, execLast, Block.last, Block.byteClass, hb, h]
  · omega

/-- `END` at an index the decode wants. -/
theorem endAt_noByte {idx : Nat} (h : idx ≤ 8) : endAt idx = .noByte := by
  simp [endAt, Nat.lt_succ_of_le h]

/-- `END` at an index no decode wants. -/
theorem endAt_outOfRange {idx : Nat} (h : 8 < idx) : endAt idx = .outOfRange := by
  simp [endAt, Nat.not_lt.2 (show 9 ≤ idx from h)]

/-- The event of an edge outside `BUSY` (43 R149). -/
theorem event_not_busy {p : Pins} {ph : Phase} (h : ph ≠ .busy) :
    event p ph = if p.rst then .reset else if p.start then .start else .nothing := by
  simp [event, h]

/-- The event of an edge in `BUSY` (43 R149). -/
theorem event_busy (p : Pins) :
    event p .busy = if p.rst then .reset else
      if p.inValid then (if p.inEnd then .endOfBuffer else .byte p.inByte) else .nothing := by
  simp [event]

/-- An edge outside `BUSY` resets, starts a decode on the stream, or changes nothing. -/
theorem edge_not_busy {p : Pins} {s : State} (h : s.ph ≠ .busy) :
    edge p s = .next (if p.rst then s.resetRegs else if p.start then s.startDecode .stream else s) := by
  unfold edge
  rw [event_not_busy h]
  cases p.rst <;> cases p.start <;> rfl

/-- An edge in `BUSY` resets, takes the fetch outcome presented, or stalls. -/
theorem edge_busy {p : Pins} {s : State} (h : s.ph = .busy) :
    edge p s =
      if p.rst then .next s.resetRegs else
      if p.inValid then
        afterFetch (if p.inEnd then endAt s.idx.toNat else classify s.idx.toNat p.inByte) s
      else .next s := by
  unfold edge
  rw [h, event_busy]
  cases p.rst <;> cases p.inValid <;> cases p.inEnd <;> rfl

/-- Everything a step can be (41 R100, R107, 43 R150). -/
theorem step_cases (s : State) :
    (s.ph = .busy ∧ s.src = .buffer ∧ step s = byteStep s) ∨
    (s.runsAlone = false ∧ s.host = [] ∧ step s = .next s) ∨
    (s.runsAlone = false ∧ ∃ m rest, s.host = m :: rest ∧ step s = hostMove m (s.setHost rest)) := by
  cases ha : s.runsAlone
  · cases hh : s.host with
    | nil => exact .inr (.inl ⟨rfl, rfl, by simp [step, advance, ha, hh]⟩)
    | cons m rest => exact .inr (.inr ⟨rfl, m, rest, rfl, by simp [step, advance, ha, hh]⟩)
  · exact .inl ⟨((s.runsAlone_iff).1 ha).1, ((s.runsAlone_iff).1 ha).2, by simp [step, advance, ha]⟩

/-- A step that runs alone is a byte step. -/
theorem step_alone {s : State} (h : s.runsAlone = true) : step s = byteStep s := by
  simp [step, advance, h]

/-- A step with a move of the host waiting, when the block does not run alone, is that move. -/
theorem step_host {s : State} {m : HostMove} {rest : List HostMove} (h : s.runsAlone = false)
    (hh : s.host = m :: rest) : step s = hostMove m (s.setHost rest) := by
  simp [step, advance, h, hh]

/-- Reading whole varints: `gather` on a buffer just handed over and truthfully measured is the same read on the list. -/
theorem gather_handOver (s : State) {r : Request} (hr : r.truthful) (n i : Nat) :
    gather (s.handOver r).toBuffer n i =
      match n, r.buffer.drop i with
      | 0, _ => .bytes []
      | _ + 1, [] => .noByte
      | n + 1, b :: _ =>
        if contBit b then Gathered.cons b (gather (s.handOver r).toBuffer n (i + 1)) else .bytes [b] := by
  cases n with
  | zero => cases r.buffer.drop i <;> rfl
  | succ n =>
    have hlen : r.buffer.length = r.len := by
      simp only [Request.buffer, List.length_take]
      exact Nat.min_eq_left hr
    by_cases h : i < r.len
    · have hb : i < r.bytes.length := lt_of_lt_of_le h hr
      have hd : r.buffer.drop i = r.bytes[i] :: r.buffer.drop (i + 1) := by
        rw [List.drop_eq_getElem_cons (hlen.symm ▸ h)]
        simp [Request.buffer]
      have hm : memRead (s.handOver r).toBuffer i = .byte r.bytes[i] :=
        memRead_byte h (by simp [Memory.read_ofBytes, hb])
      rw [hd]
      simp [gather, hm]
    · have hd : r.buffer.drop i = [] := List.drop_eq_nil_of_le (by omega)
      have hm : memRead (s.handOver r).toBuffer i = .noByte := memRead_noByte (Nat.le_of_not_lt h)
      rw [hd]
      simp [gather, hm]

end Sys2Proof.Machine
end

