-- ==== Sys2Proof/Laws/Fetch.lean ====
section
/-! SUPPORT. What reading a whole varint finds (40 R80): the bytes read, no byte, or a byte the host did not supply. -/

namespace Sys2Proof.Machine

/-- The bytes read are the buffer's, each but the last has its continuation bit set, and a read that stops early stops at
a byte with that bit clear. -/
theorem gather_bytes (buf : Buffer) (n : Nat) : ∀ i g, gather buf n i = .bytes g →
    g.length ≤ n ∧
    (∀ j < g.length, i + j < buf.len ∧ Memory.read buf.mem (i + j) = some (g.getD j 0)) ∧
    (∀ j, j + 1 < g.length → contBit (g.getD j 0) = true) ∧
    (g.length < n → g ≠ [] ∧ contBit (g.getD (g.length - 1) 0) = false) := by
  induction n with
  | zero => intro i g h; simp [gather] at h; subst h; simp
  | succ n ih =>
    intro i g h
    rw [gather] at h
    rcases memRead_cases buf i with ⟨-, hm⟩ | ⟨hl, b, hr, hm⟩ | ⟨-, -, hm⟩ <;> rw [hm] at h <;> simp at h
    cases hb : contBit b with
    | false => simp [hb] at h; subst h; simp [hl, hr, hb]
    | true =>
      simp [hb] at h
      cases hg : gather buf n (i + 1) with
      | noByte => simp [hg, Gathered.cons] at h
      | notSupplied => simp [hg, Gathered.cons] at h
      | bytes l =>
        simp [hg, Gathered.cons] at h
        subst h
        obtain ⟨h1, h2, h3, h4⟩ := ih _ _ hg
        refine ⟨by simpa using h1, ?_, ?_, ?_⟩
        · rintro (_ | j) hj
          · simp [hl, hr]
          · simpa [Nat.add_assoc, Nat.add_comm 1 j] using h2 j (by simpa using hj)
        · rintro (_ | j) hj
          · simpa using hb
          · simpa using h3 j (by simpa using hj)
        · intro hn
          obtain ⟨hne, hc⟩ := h4 (by simpa using hn)
          have hpos : 0 < l.length := List.length_pos_iff.2 hne
          have hidx : l.length + 1 - 1 = l.length - 1 + 1 := by omega
          exact ⟨by simp, by rw [List.length_cons, hidx]; simpa using hc⟩

/-- A read that finds no byte met the end of the buffer, after continuation bytes only. -/
theorem gather_noByte (buf : Buffer) (n : Nat) : ∀ i, gather buf n i = .noByte →
    buf.len < i + n ∧ ∀ j, i ≤ j → j < buf.len → ContAt buf j := by
  induction n with
  | zero => intro i h; simp [gather] at h
  | succ n ih =>
    intro i h
    rw [gather] at h
    rcases memRead_cases buf i with ⟨hl, hm⟩ | ⟨hl, b, hr, hm⟩ | ⟨-, -, hm⟩ <;> rw [hm] at h <;> simp at h
    · exact ⟨by omega, fun j h1 h2 => by omega⟩
    · cases hb : contBit b with
      | false => simp [hb] at h
      | true =>
        simp [hb] at h
        cases hg : gather buf n (i + 1) with
        | bytes l => simp [hg, Gathered.cons] at h
        | notSupplied => simp [hg, Gathered.cons] at h
        | noByte =>
          obtain ⟨h1, h2⟩ := ih _ hg
          refine ⟨by omega, fun j hj hj' => ?_⟩
          rcases Nat.eq_or_lt_of_le hj with rfl | hj
          · exact ⟨b, hr, hb⟩
          · exact h2 j hj hj'

/-- Where the host supplied the whole buffer it stated, no read finds a byte missing. -/
theorem gather_supplied (buf : Buffer) (hs : ∀ i < buf.len, ∃ b, Memory.read buf.mem i = some b) (n : Nat) :
    ∀ i, gather buf n i ≠ .notSupplied := by
  induction n with
  | zero => intro i; simp [gather]
  | succ n ih =>
    intro i
    rw [gather]
    rcases memRead_cases buf i with ⟨-, hm⟩ | ⟨hl, b, hr, hm⟩ | ⟨hl, hn, hm⟩ <;> rw [hm]
    · simp
    · cases hb : contBit b with
      | false => simp [hb]
      | true =>
        have := ih (i + 1)
        cases hg : gather buf n (i + 1) <;> simp_all [Gathered.cons]
    · obtain ⟨b, hb⟩ := hs i hl
      rw [hn] at hb
      cases hb

end Sys2Proof.Machine
end

