-- ==== Sys2Proof/Laws/Operation.lean ====
section
/-! SUPPORT. The loop of DECODE one byte at a time (40 R80), and the sum of payloads one byte longer. -/

namespace Sys2Proof.Machine

@[simp] theorem decodeLoop_nil (i : Nat) (acc : Acc) : decodeLoop i acc [] = .error .truncatedInput := rfl

/-- A leading byte with its continuation bit set. -/
theorem decodeLoop_cont {i : Nat} {b : Byte} (hi : i < 8) (hb : contBit b = true) (acc : Acc) (bs : List Byte) :
    decodeLoop i acc (b :: bs) = decodeLoop (i + 1) (pushLead acc (payload b)) bs := by
  simp [decodeLoop, hi, hb]

/-- A leading byte with its continuation bit clear. -/
theorem decodeLoop_term {i : Nat} {b : Byte} (hi : i < 8) (hb : contBit b = false) (acc : Acc) (bs : List Byte) :
    decodeLoop i acc (b :: bs) = .ok (s64 (pushLead acc (payload b))) (i + 1) := by
  simp [decodeLoop, hi, hb]

/-- The ninth byte. -/
theorem decodeLoop_last (b : Byte) (acc : Acc) (bs : List Byte) :
    decodeLoop 8 acc (b :: bs) = .ok (s64 (pushLast acc b)) 9 := by
  simp [decodeLoop]

@[simp] theorem payloadSum_zero (buf : Buffer) : payloadSum buf 0 = 0 := rfl

/-- One more byte shifts the sum by seven bits and adds its payload (30 R68). -/
theorem payloadSum_succ (buf : Buffer) (n : Nat) :
    payloadSum buf (n + 1) = payloadSum buf n * 2 ^ 7 + (payload (byteAt buf n)).toNat := by
  rw [payloadSum, Finset.sum_range_succ, payloadSum, Finset.sum_mul]
  congr 1
  · refine Finset.sum_congr rfl fun j hj => ?_
    have hj : j < n := Finset.mem_range.1 hj
    rw [Nat.mul_assoc, ← Nat.pow_add, show 7 * (n + 1 - 1 - j) = 7 * (n - 1 - j) + 7 by omega]
  · simp

end Sys2Proof.Machine
end

