-- ==== Sys2Proof/Laws/PerInstr.lean ====
section
/-! SUPPORT. Statements about every instruction as syntax, one lemma per constructor. -/

namespace Sys2Proof.Laws.EncodedLength

/-- An instruction's encoding has the opcode table's width, and it is legal at some index (30 R64, R66). -/
def Statement (i : Instr) : Prop := (encode i).length = i.size ∧ ∃ idx, i.legalAt idx = true

theorem cont (p : Payload) : Statement (.cont p) := ⟨rfl, 0, rfl⟩
theorem term (p : Payload) : Statement (.term p) := ⟨rfl, 0, rfl⟩
theorem last (d : Byte) : Statement (.last d) := ⟨rfl, 8, rfl⟩
theorem v1 (a : Payload) : Statement (.v1 a) := ⟨rfl, 0, rfl⟩
theorem v2 (a b : Payload) : Statement (.v2 a b) := ⟨rfl, 0, rfl⟩
theorem v3 (a b c : Payload) : Statement (.v3 a b c) := ⟨rfl, 0, rfl⟩
theorem v4 (a b c d : Payload) : Statement (.v4 a b c d) := ⟨rfl, 0, rfl⟩
theorem v5 (a b c d e : Payload) : Statement (.v5 a b c d e) := ⟨rfl, 0, rfl⟩
theorem v6 (a b c d e f : Payload) : Statement (.v6 a b c d e f) := ⟨rfl, 0, rfl⟩
theorem v7 (a b c d e f g : Payload) : Statement (.v7 a b c d e f g) := ⟨rfl, 0, rfl⟩
theorem v8 (a b c d e f g h : Payload) : Statement (.v8 a b c d e f g h) := ⟨rfl, 0, rfl⟩
theorem v9 (a b c d e f g h : Payload) (i : Byte) : Statement (.v9 a b c d e f g h i) := ⟨rfl, 0, rfl⟩

end Sys2Proof.Laws.EncodedLength
end

