-- ==== Sys2Proof/Laws/Window.lean ====
section
/-! SUPPORT. The lanes of a window and the length select (42 R121, R122, 43 R147). -/

namespace Sys2Proof.Machine

/-- Everything the length select can answer: the first clear continuation bit among the leading lanes present, the ninth
lane, or none. -/
theorem lengthSelect_cases (win : Window) {n : Nat} (hn : n ≤ 9) :
    (∃ t, t < n ∧ t < 8 ∧ contBit (lane win t) = false ∧ (∀ j < t, contBit (lane win j) = true) ∧
      lengthSelect win n = some (t + 1)) ∨
    (n = 9 ∧ (∀ j < 8, contBit (lane win j) = true) ∧ lengthSelect win n = some 9) ∨
    (n ≤ 8 ∧ (∀ j < n, contBit (lane win j) = true) ∧ lengthSelect win n = none) := by
  unfold lengthSelect
  cases h : (List.range (min n Config.leadBytes)).find? (fun i => !contBit (lane win i)) with
  | some t =>
    rw [List.find?_range_eq_some] at h
    obtain ⟨hc, hm, hlt⟩ := h
    have hm := List.mem_range.1 hm
    refine .inl ⟨t, by omega, by simp at hm; omega, by simpa using hc, fun j hj => by simpa using hlt j hj, rfl⟩
  | none =>
    rw [List.find?_range_eq_none] at h
    have h : ∀ j, j < n → j < 8 → contBit (lane win j) = true := fun j h1 h2 => by simpa using h j (by simp; omega)
    by_cases h9 : n = 9
    · exact .inr (.inl ⟨h9, fun j hj => h j (by omega) hj, by simp [h9]⟩)
    · exact .inr (.inr ⟨by omega, fun j hj => h j hj (by omega), by simp [h9]⟩)

end Sys2Proof.Machine
end

