-- ==== Sys2Proof/Tests/Slice0.lean ====
section
/-! SUPPORT. Tests. The expected results are the spec's own (95_test_vectors.md, 41 R103 to R106, 43) or written out by
hand from the encoding tables (30 R64, R66); each witness shows that a statement's hypotheses can be met. -/

namespace Sys2Proof.Tests

open Sys2Proof Sys2Proof.Machine

/-- A state in phase `ph` with the given registers, on a buffer of `bytes`, all of them stated. -/
def holding (ph : Phase) (acc : Acc) (idx : Index) (bytes : List Byte) : State :=
  { State.reset with ph := ph, acc := acc, idx := idx, mem := Memory.ofBytes bytes, len := bytes.length }

/-- A state in `BUSY` on the stream of profile S. -/
def onStream (acc : Acc) (idx : Index) (host : List HostMove) : State :=
  { State.reset with ph := .busy, acc := acc, idx := idx, src := .stream, host := host }

/-- The registers after a step, where it answers a next state. -/
def regs : Host.Outcome State Fault Refusal → Option (Phase × Acc × Index)
  | .next t => some (t.ph, t.acc, t.idx)
  | .fault _ => none
  | .refused _ => none

/-- The pins of one edge. -/
def pins (rst start inValid inEnd : Bool) (inByte : Byte) : Pins :=
  { rst := rst, start := start, inValid := inValid, inEnd := inEnd, inByte := inByte }

/-- A request that states the length of what it supplies. -/
def ask (bytes : List Byte) : Request := { bytes := bytes, len := bytes.length }

-- ==== Well-formedness: an ill-formed term for each check (30 R64, R75) ====

theorem test_wf_cont : Instr.legalAt 7 (.cont 0) = true ∧ Instr.legalAt 8 (.cont 0) = false := by decide
theorem test_wf_term : Instr.legalAt 7 (.term 0) = true ∧ Instr.legalAt 8 (.term 0) = false := by decide
theorem test_wf_last :
    Instr.legalAt 8 (.last 0) = true ∧ Instr.legalAt 7 (.last 0) = false ∧ Instr.legalAt 9 (.last 0) = false := by decide
theorem test_wf_form : Instr.legalAt 0 (.v1 0) = true ∧ Instr.legalAt 1 (.v1 0) = false ∧
    Instr.legalAt 1 (.v2 0 0) = false ∧ Instr.legalAt 1 (.v3 0 0 0) = false ∧
    Instr.legalAt 1 (.v4 0 0 0 0) = false ∧ Instr.legalAt 1 (.v5 0 0 0 0 0) = false := by decide
theorem test_wf_form_long : Instr.legalAt 1 (.v6 0 0 0 0 0 0) = false ∧
    Instr.legalAt 1 (.v7 0 0 0 0 0 0 0) = false ∧ Instr.legalAt 1 (.v8 0 0 0 0 0 0 0 0) = false ∧
    Instr.legalAt 1 (.v9 0 0 0 0 0 0 0 0 0) = false := by decide
theorem test_wf_listing_good : listingWellFormed [.term 5] = true ∧ listingWellFormed [.cont 1, .term 0] = true ∧
    listingWellFormed (List.replicate 8 (.cont 127) ++ [.last 255]) = true := by decide
theorem test_wf_listing_empty : listingWellFormed [] = false := by decide
theorem test_wf_listing_open : listingWellFormed [.cont 1] = false := by decide
theorem test_wf_listing_early_last : listingWellFormed [.last 0] = false := by decide
/-- The reading of R75 that log entry 18 names. -/
theorem test_wf_listing_late_term : listingWellFormed (List.replicate 8 (.cont 0) ++ [.term 0]) = false := by decide
theorem test_wf_listing_ninth_cont :
    listingWellFormed (List.replicate 9 (.cont 0) ++ [.last 0]) = false := by decide
theorem test_wf_listing_after_term : listingWellFormed [.term 0, .cont 0] = false := by decide
theorem test_wf_listing_form : listingWellFormed [.v1 0] = false := by decide

-- ==== Decoding: a word written bit by bit for every constructor (30 R64, R66) ====

theorem test_decode_cont : decodeByte 0 0b10000001#8 = .ok (.cont 1) ∧ decodeByte 7 0b11111111#8 = .ok (.cont 127) := by
  decide
theorem test_decode_term : decodeByte 0 0b01111111#8 = .ok (.term 127) ∧ decodeByte 7 0b00101100#8 = .ok (.term 44) := by
  decide
theorem test_decode_last : decodeByte 8 0b10000000#8 = .ok (.last 128) ∧ decodeByte 8 0b01111111#8 = .ok (.last 127) := by
  decide
theorem test_decode_none : decodeByte 9 0b00000000#8 = .error .noFormat := by decide
theorem test_decode_v1 : decodeVarint (bytesOfWord 1 0b00000101) = .ok (.v1 5, []) := by decide
theorem test_decode_v2 : decodeTableWord 16 0b1000001000101100 = some (.v2 2 44) := by decide
theorem test_decode_v3 : decodeTableWord 24 0b100000111111111101111111 = some (.v3 3 127 127) := by decide
theorem test_decode_v4 : decodeTableWord 32 0b10000001100000101000001100000100 = some (.v4 1 2 3 4) := by decide
theorem test_decode_v5 :
    decodeTableWord 40 0b1000000110000010100000111000010000000101 = some (.v5 1 2 3 4 5) := by decide
theorem test_decode_v6 :
    decodeTableWord 48 0b100000011000001010000011100001001000010100000110 = some (.v6 1 2 3 4 5 6) := by decide
theorem test_decode_v7 :
    decodeTableWord 56 0b10000001100000101000001110000100100001011000011000000111 =
      some (.v7 1 2 3 4 5 6 7) := by decide
theorem test_decode_v8 :
    decodeTableWord 64 0b1000000110000010100000111000010010000101100001101000011100001000 =
      some (.v8 1 2 3 4 5 6 7 8) := by decide
theorem test_decode_v9 :
    decodeTableWord 72 0b100000011000001010000011100001001000010110000110100001111000100011001001 =
      some (.v9 1 2 3 4 5 6 7 8 201) := by decide
theorem test_decode_truncated : decodeVarint [0x81, 0x80] = .error .truncated ∧ decodeVarint [] = .error .truncated := by
  decide
theorem test_disassemble_stops : disassembleFrom 0 [0x82, 0x2C, 0x07] = .ok [.cont 2, .term 44] := by decide

-- ==== Byte steps (95 section 2.8) ====

theorem test_term_zero : regs (step (holding .busy 0 0 [0x00])) = some (.done, 0, 1) := by decide
theorem test_term_seven :
    regs (step (holding .busy 0x0001FFFFFFFFFFFF 7 [0xFF, 0xFF, 0xFF, 0xFF, 0xFF, 0xFF, 0xFF, 0x7F])) =
      some (.done, 0x00FFFFFFFFFFFFFF, 8) := by decide
theorem test_cont_zero : regs (step (holding .busy 0 0 [0x80, 0x00])) = some (.busy, 0, 1) := by decide
theorem test_cont_seven :
    regs (step (holding .busy 0x0001FFFFFFFFFFFF 7 (List.replicate 9 0xFF))) =
      some (.busy, 0x00FFFFFFFFFFFFFF, 8) := by decide
theorem test_last_minus_one :
    regs (step (holding .busy 0x00FFFFFFFFFFFFFF 8 (List.replicate 9 0xFF))) =
      some (.done, 0xFFFFFFFFFFFFFFFF, 9) := by decide
theorem test_last_bit_seven :
    regs (step (holding .busy 0 8 (List.replicate 9 0x80))) = some (.done, 0x80, 9) := by decide
theorem test_trunc_empty : regs (step (holding .busy 0 0 [])) = some (.err, 0, 0) := by decide
theorem test_trunc_eight :
    regs (step (holding .busy 0x00FFFFFFFFFFFFFF 8 (List.replicate 8 0xFF))) = some (.err, 0, 0) := by decide
theorem test_start_from_done :
    regs (step { holding .done 0x80 2 [] with host := [.start (ask [])] }) = some (.busy, 0, 0) := by decide
theorem test_ended_stays : regs (step (holding .done 0x80 2 [0x00])) = some (.done, 0x80, 2) := by decide

-- ==== Length forms (95 sections 2.1 to 2.3), as one transaction each ====

/-- The registers after the transaction on a buffer, from a state that holds an older result. -/
def transaction (bytes : List Byte) : Option (Phase × Acc × Index) :=
  regs (step { holding .done 0x12345 9 [] with host := [.decode (ask bytes)] })

theorem test_v1 : transaction [0x7F] = some (.done, 0x7F, 1) := by decide
theorem test_v2 : transaction [0x82, 0x2C] = some (.done, 0x12C, 2) := by decide
theorem test_v3 : transaction [0x83, 0xFF, 0x7F] = some (.done, 0xFFFF, 3) := by decide
theorem test_v4 : transaction [0x81, 0x80, 0x80, 0x00] = some (.done, 0x200000, 4) := by decide
theorem test_v5 : transaction [0x90, 0x80, 0x80, 0x80, 0x00] = some (.done, 0x100000000, 5) := by decide
theorem test_v6 : transaction [0x81, 0x80, 0x80, 0x80, 0x80, 0x00] = some (.done, 0x800000000, 6) := by decide
theorem test_v7 :
    transaction [0xFF, 0xFF, 0xFF, 0xFF, 0xFF, 0xFF, 0x7F] = some (.done, 0x1FFFFFFFFFFFF, 7) := by decide
theorem test_v8 :
    transaction [0x81, 0x80, 0x80, 0x80, 0x80, 0x80, 0x80, 0x00] = some (.done, 0x2000000000000, 8) := by decide
theorem test_v9 :
    transaction [0x80, 0xC8, 0xE8, 0xD6, 0xBC, 0xA6, 0xD7, 0xCD, 0xEF] = some (.done, 0x0123456789ABCDEF, 9) := by decide
theorem test_v9_least :
    transaction [0xC0, 0x80, 0x80, 0x80, 0x80, 0x80, 0x80, 0x80, 0x00] = some (.done, 0x8000000000000000, 9) := by decide
theorem test_transaction_truncated : transaction [0x81, 0x80] = some (.err, 0, 0) := by decide

-- ==== The operation as a function (95 sections 1 and 2.2 to 2.7) ====

theorem test_operation_source :
    decodeOperation [0x00] = .ok 0 1 ∧ decodeOperation [0x01] = .ok 1 1 ∧ decodeOperation [0x81, 0x00] = .ok 128 2 := by
  decide
theorem test_operation_s4 :
    decodeOperation [0x81, 0x80, 0x80, 0x80, 0x80, 0x80, 0x80, 0x80, 0x00] = .ok 144115188075855872 9 := by decide
theorem test_operation_signs :
    decodeOperation (List.replicate 9 0xFF) = .ok (-1) 9 ∧
    decodeOperation (List.replicate 8 0xFF ++ [0x7F]) = .ok (-129) 9 ∧
    decodeOperation (List.replicate 7 0xFF ++ [0x7F]) = .ok 72057594037927935 8 ∧
    decodeOperation [0x40] = .ok 64 1 := by decide
theorem test_operation_overlong :
    decodeOperation [0x80, 0x00] = .ok 0 2 ∧ decodeOperation (List.replicate 7 0x80 ++ [0x81, 0x00]) = .ok 256 9 := by
  decide
theorem test_operation_trailing :
    decodeOperation (List.replicate 10 0xFF) = .ok (-1) 9 ∧ decodeOperation [0x7F, 0x80] = .ok 127 1 := by decide
theorem test_operation_truncated :
    decodeOperation [] = .error .truncatedInput ∧ decodeOperation (List.replicate 8 0x80) = .error .truncatedInput := by
  decide

-- ==== Profile W (95 section 2.9) and the canonical encoder (95 section 2.11) ====

theorem test_window_junk :
    profileW 0xAAAAAAAAAAAAAA0081 2 = { value := 0x80, consumed := 2, err := false } ∧
    profileW 0x555555555555550081 1 = { value := 0, consumed := 0, err := true } := by decide
theorem test_window_nine :
    profileW 0x008080808080808081 9 = { value := 0x0200000000000000, consumed := 9, err := false } ∧
    profileW 0xFFFFFFFFFFFFFFFFFF 8 = { value := 0, consumed := 0, err := true } := by decide
theorem test_window_saturates :
    profileW 0xFFFFFFFFFFFFFFFFFF 15 = { value := 0xFFFFFFFFFFFFFFFF, consumed := 9, err := false } := by decide
theorem test_encode_value :
    encodeValue 300 = [0x82, 0x2C] ∧ encodeValue 16384 = [0x81, 0x80, 0x00] ∧
    encodeValue 72057594037927936 = [0x80, 0xC0, 0x80, 0x80, 0x80, 0x80, 0x80, 0x80, 0x00] ∧
    encodeValue (-9223372036854775808) = [0xC0, 0x80, 0x80, 0x80, 0x80, 0x80, 0x80, 0x80, 0x00] := by decide
theorem test_operation_ends :
    decodeOperation [0xBF, 0xFF, 0xFF, 0xFF, 0xFF, 0xFF, 0xFF, 0xFF, 0xFF] = .ok 9223372036854775807 9 := by decide
theorem test_varint_listing : varintListing 300 = .ok [.cont 2, .term 44] := by decide

-- ==== Profile S (95 section 2.10) ====

theorem test_edge_reset_wins : regs (edge (pins true true true false 0x00) (onStream 1 1 [])) = some (.idle, 0, 0) := by
  decide
theorem test_edge_start : regs (edge (pins false true true false 0x81) (holding .err 0 0 [])) = some (.busy, 0, 0) := by decide
theorem test_edge_byte : regs (edge (pins false false true false 0x00) (onStream 1 1 [])) = some (.done, 0x80, 2) := by
  decide
theorem test_edge_stall : regs (edge (pins false true false false 0x00) (onStream 1 1 [])) = some (.busy, 1, 1) := by decide
theorem test_edge_end : regs (edge (pins false false true true 0x81) (onStream 1 1 [])) = some (.err, 0, 0) := by decide
theorem test_edge_ignored :
    regs (edge (pins false false true false 0xFF) (holding .done 0x80 2 [])) = some (.done, 0x80, 2) := by decide
theorem test_outputs_done : outputs (holding .done 0x80 2 []) =
    { inReady := false, done := true, err := false, value := 0x80, consumed := 2 } := by decide

-- ==== Witnesses: for each statement with hypotheses, values that meet all of them ====

theorem witness_ResetEdgeAbandonsDecode :
    let s := onStream 5 1 [.edge (pins true true true true 0xFF)]
    s.runsAlone = false ∧ s.host = .edge (pins true true true true 0xFF) :: [] ∧
    (pins true true true true 0xFF).rst = true := by decide

theorem witness_ResetEdgeAbandonsDecode_quiet :
    (pins false false true true 0xFF).rst = false ∧ (pins false false true true 0xFF).start = false ∧
    edge (pins true false false false 0) (onStream 5 1 []) = .next (onStream 5 1 []).resetRegs := ⟨rfl, rfl, rfl⟩

theorem witness_StartBeginsFreshDecode :
    let s := { holding .done 0x80 2 [] with host := [.start (ask [0x00])] }
    s.ph ≠ .busy ∧ s.host = .start (ask [0x00]) :: [] ∧ s.acc = 0x80 ∧ s.idx = 2 ∧
    (holding .err 0 0 []).ph ≠ .busy ∧ State.reset.ph ≠ .busy ∧
    (pins false true true false 0x81).rst = false ∧ (pins false true true false 0x81).start = true := by decide

theorem witness_ResultIsReadOffRegisters :
    (holding .done 0x80 2 []).ph = .done ∧ (holding .err 0 0 []).ph = .err ∧ (holding .busy 1 1 []).ph = .busy ∧
    State.reset.ph = .idle := by decide

theorem witness_ResultIsReadOffRegisters_inv :
    StateInv (holding .done 0x80 2 [0x81, 0x00]) ∧ (holding .done 0x80 2 [0x81, 0x00]).ph = .done := by
  refine ⟨⟨by decide, by simp [RegsInv, holding], fun _ => ⟨by decide, fun i hi => ⟨0x81, ?_, by decide⟩, fun _ =>
    ⟨⟨0x00, by decide, by decide⟩, by decide⟩⟩⟩, rfl⟩
  obtain rfl : i = 0 := Nat.lt_one_iff.1 hi
  decide

theorem witness_FlagsFollowPhase :
    (holding .busy 1 1 [0x81, 0x00]).ph = .busy ∧ (Instr.cont 1).isByteClass = true ∧
    (Instr.term 0).isByteClass = true ∧ (holding .done 0 1 []).doneFlag = true ∧
    (holding .err 0 0 []).errFlag = true := by decide

theorem witness_FlagsFollowPhase_next :
    exec (.cont 1) (holding .busy 1 1 []) = .next (holding .busy 129 2 []) ∧
    exec (.term 0) (holding .busy 1 1 []) = .next (holding .done 128 2 []) ∧
    exec (.last 0) (holding .busy 1 8 []) = .next (holding .done 256 9 []) := ⟨rfl, rfl, rfl⟩

theorem witness_SignBitIsBit63 :
    (holding .done 0x8000000000000000 9 []).ph = .done ∧ (holding .done 64 1 []).ph = .done := by decide

theorem witness_IndexDecidesByteFormat :
    0x80#8 &&& 0x80#8 = 0x80#8 ∧ 0xFF#8 &&& 0x80#8 = 0x80#8 ∧ 0x00#8 &&& 0x80#8 = 0x00#8 ∧
    0x7F#8 &&& 0x80#8 = 0x00#8 := by decide

theorem witness_DecodeOfEncode :
    (Instr.cont 127).isByteClass = true ∧ (Instr.cont 127).legalAt 7 = true ∧ (Instr.term 0).legalAt 0 = true ∧
    (Instr.last 255).legalAt 8 = true ∧ (Instr.v1 0).isByteClass = false ∧
    (Instr.v9 127 127 127 127 127 127 127 127 255).isByteClass = false := by decide

theorem witness_EncodeOfDecode :
    decodeByte 7 0xFF = .ok (.cont 127) ∧ decodeByte 8 0x00 = .ok (.last 0) ∧
    decodeVarint [0x81, 0x00, 0x80] = .ok (.v2 1 0, [0x80]) := by decide

theorem witness_LengthFormsArePrefixCode :
    (Instr.v2 1 0).isByteClass = false ∧ encode (.v2 1 0) <+: encode (.v2 1 0) ∧
    9 ≤ (List.replicate 9 (0xFF : Byte)).length ∧ (List.replicate 8 (0xFF : Byte)).length < 9 := by decide

theorem witness_LengthIsToldByOwnBytes :
    (contBit ([0x00].getD 0 0) = false ∧ 0 < ([0x00] : List Byte).length) ∧
    (contBit ((List.replicate 7 0x80 ++ [0x01]).getD 7 0) = false ∧
      ∀ j < 7, contBit ((List.replicate 7 0x80 ++ [0x01]).getD j 0) = true) ∧
    ∀ j < 8, contBit ((List.replicate 9 0xFF).getD j 0) = true := by decide

theorem witness_ListingRoundTrip :
    listingWellFormed [.cont 2, .term 44] = true ∧ listingWellFormed (List.replicate 8 (.cont 0) ++ [.last 0]) = true ∧
    disassembleFrom 0 [0x82, 0x2C] = .ok [.cont 2, .term 44] ∧
    (-2 ^ 63 : Int) ≤ -2 ^ 63 ∧ (2 ^ 63 - 1 : Int) < 2 ^ 63 := by decide

/-- For the statements of `CONT` and `TERM`: index 0, 1 and 7, with every clause's further hypothesis. -/
theorem witness_ContinuationByteStep :
    let s0 := holding .busy 0 0 []
    let s7 := holding .busy 0x0001FFFFFFFFFFFF 7 []
    s0.ph = .busy ∧ s0.idx.toNat ≤ 7 ∧ s0.acc = 0 ∧ s0.idx = 0 ∧ s0.acc.toNat < 2 ^ (7 * s0.idx.toNat) ∧
    s7.ph = .busy ∧ s7.idx.toNat = 7 ∧ s7.acc.toNat < 2 ^ (7 * s7.idx.toNat) := by decide

theorem witness_TerminatingByteStep :
    let s := holding .busy 1 1 []
    let s7 := holding .busy 0x0001FFFFFFFFFFFF 7 []
    s.ph = .busy ∧ s.idx.toNat ≤ 7 ∧ s.acc = 1 ∧ s.idx = 1 ∧ s.acc.toNat < 2 ^ (7 * s.idx.toNat) ∧
    s7.ph = .busy ∧ s7.idx.toNat ≤ 7 ∧ s7.acc.toNat < 2 ^ (7 * s7.idx.toNat) ∧
    (holding .busy 0 0 []).acc = 0 ∧ (holding .busy 0 0 []).idx = 0 := by decide

theorem witness_NinthByteStep :
    let s := holding .busy 0x00FFFFFFFFFFFFFF 8 []
    s.ph = .busy ∧ s.idx = 8 ∧ s.acc.toNat < 2 ^ 56 ∧ s.acc.toNat = 2 ^ 56 - 1 := by decide

theorem witness_NinthByteStep_sign :
    (holding .busy 0x0001FFFFFFFFFFFF 7 []).acc.toNat < 2 ^ (7 * 7) ∧
    exec (.term 127) (holding .busy 0x0001FFFFFFFFFFFF 7 []) = .next (holding .done 0x00FFFFFFFFFFFFFF 8 []) ∧
    exec (.cont 127) (holding .busy 0x0001FFFFFFFFFFFF 7 []) = .next (holding .busy 0x00FFFFFFFFFFFFFF 8 []) :=
  ⟨by decide, rfl, rfl⟩

theorem witness_FetchSelectsTheStep :
    let s := holding .busy 1 1 [0x81]
    let s7 := holding .busy 1 7 (List.replicate 8 0xFF)
    let s8 := holding .busy 1 8 (List.replicate 9 0x80)
    (s.ph = .busy ∧ s.idx.toNat ≤ 8 ∧ s.len ≤ s.idx.toNat) ∧
    (s7.ph = .busy ∧ s7.idx.toNat < s7.len ∧ Memory.read s7.mem s7.idx.toNat = some 0xFF ∧ s7.idx.toNat ≤ 7 ∧
      (0xFF : Byte).getLsbD 7 = true) ∧
    (Memory.read (holding .busy 0 0 [0x7F]).mem 0 = some 0x7F ∧ (0x7F : Byte).getLsbD 7 = false) ∧
    (s8.ph = .busy ∧ s8.idx.toNat < s8.len ∧ Memory.read s8.mem s8.idx.toNat = some 0x80 ∧ s8.idx.toNat = 8) := by
  decide

theorem witness_MemReadIsBounded :
    ((0 < (ask [0x81]).len ∧ (ask [0x81]).bytes[0]? = some 0x81) ∧ (holding .busy 0 0 []).len ≤ 0) ∧
    (let s := holding .busy 0x00FFFFFFFFFFFFFF 8 (List.replicate 8 0xFF);
      s.runsAlone = true ∧ s.idx.toNat ≤ 8 ∧ s.len ≤ s.idx.toNat) := by decide

theorem witness_TruncatedInputIsTaken :
    let s := holding .busy 0 0 []
    s.runsAlone = true ∧ s.idx.toNat ≤ 8 ∧ s.len ≤ s.idx.toNat := by decide

theorem witness_TruncatedExactlyWhenShort :
    (holding .busy 0 8 (List.replicate 9 0x80)).runsAlone = true ∧ (holding .busy 0 8 (List.replicate 9 0x80)).idx.toNat ≤ 8 ∧
    regs (step (holding .busy 0 8 (List.replicate 9 0x80))) = some (.done, 0x80, 9) ∧
    (List.replicate 8 (0x80 : Byte)).length ≤ 8 ∧ ∀ b ∈ List.replicate 8 (0x80 : Byte), contBit b = true := by decide

theorem witness_TruncatedExactlyWhenShort_raised :
    let s := holding .busy 1 1 [0x81]
    StateInv s ∧ s.runsAlone = true ∧ regs (step s) = some (.err, 0, 0) ∧ (Instr.cont 0).isByteClass = true := by
  refine ⟨⟨by decide, by simp [RegsInv, holding], fun _ => ⟨by decide, fun i hi => ⟨0x81, ?_, by decide⟩, by decide⟩⟩,
    by decide, by decide, rfl⟩
  obtain rfl : i = 0 := Nat.lt_one_iff.1 hi
  decide

theorem witness_EndedDecodeStaysEnded :
    let s := holding .done 0x80 2 []
    s.ph ≠ .busy ∧ s.host = [] ∧ (Instr.last 0).isByteClass = true ∧ State.reset.ph ≠ .busy ∧
    regs (step s) = some (.done, 0x80, 2) := by decide

theorem witness_IndexOnlyAdvancesByOne :
    (holding .busy 0 8 (List.replicate 9 0x80)).ph = .busy ∧
    regs (step (holding .busy 0 8 (List.replicate 9 0x80))) = some (.done, 0x80, 9) := by decide

/-- The causes of the other outcomes: a stall, an ignored start, an empty queue, the end of the buffer, a reset. -/
theorem witness_IndexOnlyAdvancesByOne_causes :
    regs (step (onStream 5 1 [.edge (pins false true false false 0)])) = some (.busy, 5, 1) ∧
    regs (step (onStream 5 1 [.start (ask [0x00])])) = some (.busy, 5, 1) ∧
    regs (step (onStream 5 1 [])) = some (.busy, 5, 1) ∧
    regs (step (onStream 5 1 [.edge (pins false false true true 0)])) = some (.err, 0, 0) ∧
    regs (step (onStream 5 1 [.edge (pins true false false false 0)])) = some (.idle, 0, 0) := by decide

theorem witness_AccumulationNeverOverflows :
    (0 : Acc).toNat < 2 ^ (7 * 0) ∧ (0x0001FFFFFFFFFFFF : Acc).toNat < 2 ^ (7 * 7) ∧
    (0x00FFFFFFFFFFFFFF : Acc).toNat < 2 ^ 56 := by decide

theorem witness_LengthFormsJoinPayloads :
    ([127] : List Payload).length ≤ 8 ∧ (List.replicate 8 (127 : Payload)).length = 8 := by decide

theorem witness_PayloadBitMap :
    (List.replicate 8 (127 : Payload)).length ≤ 8 ∧ 0 < (List.replicate 8 (127 : Payload)).length ∧
    7 * (List.replicate 8 (127 : Payload)).length ≤ 56 ∧ (List.replicate 8 (127 : Payload)).length = 8 := by decide

theorem witness_InstructionFrame :
    exec (.term 0) (holding .busy 1 1 [0x81, 0x00]) = .next (holding .done 128 2 [0x81, 0x00]) ∧
    exec (.v2 1 0) (holding .idle 0 0 [0x81, 0x00]) = .next (holding .done 128 2 [0x81, 0x00]) ∧
    exec (.term 0) (holding .idle 0 0 [0x81]) = .next (holding .idle 0 0 [0x81]) := ⟨rfl, rfl, rfl⟩

/-- For the statements about a decode that ends well: counts 1, 8 and 9. -/
theorem witness_decode_ends_well :
    decodeOperation [0x7F] = .ok 127 1 ∧ decodeOperation (List.replicate 7 0x80 ++ [0x01]) = .ok 1 8 ∧
    decodeOperation (List.replicate 9 0xFF) = .ok (-1) 9 := by decide

theorem witness_CountOfBytesExamined :
    decodeOperation [0x81, 0x00] = .ok 128 2 ∧ contBit (([0x81, 0x00] : List Byte).getD 1 0) = false ∧
    (∀ j < 1, contBit (([0x81, 0x00] : List Byte).getD j 0) = true) ∧
    decodeOperation (List.replicate 9 0xFF) = .ok (-1) 9 ∧
    ∀ t < 8, ¬ contBit ((List.replicate 9 (0xFF : Byte)).getD t 0) = false := by decide

theorem witness_BoundedConsumption : decodeOperation (List.replicate 10 0xFF) = .ok (-1) 9 := by decide

theorem witness_ShorterBufferIsTruncated :
    decodeOperation (List.replicate 9 0xFF) = .ok (-1) 9 ∧ 8 < 9 ∧ decodeOperation [0x00] = .ok 0 1 ∧ 0 < 1 := by decide

theorem witness_TrailingBytesHaveNoInfluence : decodeOperation [0x81, 0x00, 0x80, 0x80] = .ok 128 2 := by decide

theorem witness_SingleByteLaw : (0x7F : Byte).getLsbD 7 = false ∧ (0x00 : Byte).getLsbD 7 = false := by decide

theorem witness_ValueRangeByLength :
    decodeOperation [0xFF, 0x7F] = .ok 16383 2 ∧
    decodeOperation [0xC0, 0x80, 0x80, 0x80, 0x80, 0x80, 0x80, 0x80, 0x00] = .ok (-9223372036854775808) 9 := by decide

/-- For the closed form and profile W: a buffer of two bytes with junk above it, a buffer of nine, an empty buffer. -/
theorem witness_ClosedFormAgreesWithDecode :
    (∀ i < min ([0x81, 0x00] : List Byte).length 9, ([0x81, 0x00] : List Byte)[i]? = some (lane 0xAAAAAAAAAAAAAA0081 i)) ∧
    (∀ i < min (List.replicate 9 (0xFF : Byte)).length 9,
      (List.replicate 9 (0xFF : Byte))[i]? = some (lane 0xFFFFFFFFFFFFFFFFFF i)) ∧
    ∀ i < min ([] : List Byte).length 9, ([] : List Byte)[i]? = some (lane 0 i) := by decide

theorem witness_WindowProfileComputesDecode :
    (∀ i < min ([0x81, 0x00] : List Byte).length 9, ([0x81, 0x00] : List Byte)[i]? = some (lane 0xAAAAAAAAAAAAAA0081 i)) ∧
    (2 : BitVec 4).toNat = min ([0x81, 0x00] : List Byte).length 9 ∧
    (9 : BitVec 4).toNat = min (List.replicate 10 (0xFF : Byte)).length 9 := by decide

theorem witness_WindowCountSaturates : 10 ≤ (10 : BitVec 4).toNat ∧ 10 ≤ (15 : BitVec 4).toNat := by decide

theorem witness_AbsentLanesHaveNoInfluence :
    (∀ i < lanesAvailable 2, lane 0xAAAAAAAAAAAAAA0081 i = lane 0x555555555555550081 i) ∧
    closedForm 0xAAAAAAAAAAAAAA0081 (lanesAvailable 9) = some (0x80, 2) ∧
    closedForm 0xFFFFFFFFFFFFFFFFFF (lanesAvailable 15) = some (0xFFFFFFFFFFFFFFFF, 9) := by decide

theorem witness_CanonicalEncodingRoundTrips :
    (-2 ^ 63 : Int) ≤ -2 ^ 63 ∧ (-2 ^ 63 : Int) < 2 ^ 63 ∧ (-2 ^ 63 : Int) ≤ 2 ^ 63 - 1 ∧ (2 ^ 63 - 1 : Int) < 2 ^ 63 := by
  decide

theorem witness_CanonicalEncodingIsShortest : decodeOperation [0x80, 0x80, 0x01] = .ok 1 3 ∧
    decodeOperation [0x01, 0xFF] = .ok 1 1 := by decide

theorem witness_OneEncodingPerLength :
    ((-2 ^ 63 : Int) < 0 ∧ (2 ^ 56 : Int) < 2 ^ 63) ∧ ((0 : Int) ≤ 127 ∧ (127 : Int) < 2 ^ 7) ∧
    ((2 ^ (7 * (2 - 1)) : Int) ≤ 128 ∧ (128 : Int) < 2 ^ (7 * 2)) ∧
    ((2 ^ (7 * (8 - 1)) : Int) ≤ 2 ^ 56 - 1 ∧ (2 ^ 56 - 1 : Int) < 2 ^ (7 * 8)) ∧
    (encodeValue 0).length ≤ 1 ∧ (encodeValue (-1)).length ≤ 9 := by decide

theorem witness_StepRunsDecodedInstruction :
    (let s := holding .busy 0x00FFFFFFFFFFFFFF 8 (List.replicate 9 0xFF);
      s.runsAlone = true ∧ s.idx.toNat < s.len ∧ Memory.read s.mem s.idx.toNat = some 0xFF ∧
      decodeByte s.idx.toNat 0xFF = .ok (.last 0xFF)) ∧
    (let s := { State.reset with host := [.decode (ask [0x81, 0x00])] };
      s.ph ≠ .busy ∧ (ask [0x81, 0x00]).len ≤ (ask [0x81, 0x00]).bytes.length ∧
      s.host = .decode (ask [0x81, 0x00]) :: [] ∧ decodeVarint (ask [0x81, 0x00]).buffer = .ok (.v2 1 0, [])) ∧
    (let p := pins false false true false 0x00;
      let s := onStream 1 1 [.edge p];
      s.ph = .busy ∧ s.src = .stream ∧ s.host = .edge p :: [] ∧ p.rst = false ∧ p.inValid = true ∧ p.inEnd = false ∧
      decodeByte s.idx.toNat p.inByte = .ok (.term 0)) := by decide

theorem witness_PlacedInstructionRuns :
    decodeByte 0 0x81 = .ok (.cont 1) ∧ 2 ≤ 9 ∧
    decodeTableWord (8 * 9) 0xC08080808080808000 = some (.v9 64 0 0 0 0 0 0 0 0) := by decide

/-- For the transaction, the byte steps and their agreement: a buffer that decodes, one that does not, and an empty
one, each handed over outside a decode. -/
theorem witness_TransactionComputesDecode :
    State.reset.ph ≠ .busy ∧ (ask [0x81, 0x00]).len ≤ (ask [0x81, 0x00]).bytes.length ∧
    (ask [0x81]).len ≤ (ask [0x81]).bytes.length ∧ (ask []).len ≤ (ask []).bytes.length ∧
    ({ State.reset with host := [.decode (ask [0x81])] } : State).host = .decode (ask [0x81]) :: [] := by decide

theorem witness_ByteStepsComputeDecode :
    State.reset.ph ≠ .busy ∧ (ask [0x81, 0x00]).len ≤ (ask [0x81, 0x00]).bytes.length ∧
    ({ State.reset with host := [.start (ask [0x81, 0x00])] } : State).host = .start (ask [0x81, 0x00]) :: [] ∧
    stepCount (ask [0x81, 0x00]).buffer = 3 ∧ stepCount (ask [0x81]).buffer = 3 ∧ stepCount (ask []).buffer = 2 := by decide

theorem witness_BigStepEqualsSmallSteps :
    (holding .err 0 0 []).ph ≠ .busy ∧ (ask [0xFF, 0x7F]).len ≤ (ask [0xFF, 0x7F]).bytes.length := by decide

theorem witness_SerialScheduleComputesDecode :
    let p := pins false true true false 0x81
    let ps := [pins false false true false 0x81, pins false false false false 0, pins false false true false 0x00,
      pins false false true true 0]
    let s := { State.reset with host := .edge p :: (ps.map HostMove.edge ++ []) }
    s.ph ≠ .busy ∧ p.rst = false ∧ p.start = true ∧ (∀ q ∈ ps, q.rst = false ∧ q.start = false) ∧
    presented ps <+: ([0x81, 0x00] : List Byte).map some ++ [none] ∧
    byteStepCount [0x81, 0x00] ≤ (presented ps).length := by decide

/-- The schedule of 95 section 2.10, edges 2 to 5: the host stops presenting when the decode has ended. -/
theorem witness_SerialScheduleComputesDecode_stops :
    let ps := [pins false false true false 0x81, pins false true false false 0, pins false false true false 0x00]
    presented ps <+: ([0x81, 0x00, 0xFF] : List Byte).map some ++ [none] ∧
    byteStepCount [0x81, 0x00, 0xFF] ≤ (presented ps).length ∧ (presented ps).length = 2 := by decide

/-- The truncated schedule of 95 section 2.10, edges 8 and 9: the one byte and the end. -/
theorem witness_SerialScheduleComputesDecode_end :
    let ps := [pins false false true false 0x81, pins false false true true 0]
    presented ps <+: ([0x81] : List Byte).map some ++ [none] ∧
    byteStepCount [0x81] ≤ (presented ps).length := by decide

theorem witness_SerialEventPriority :
    (pins true true true true 0).rst = true ∧ (pins false true true false 0).start = true ∧ Phase.idle ≠ .busy ∧
    (pins false true true false 0).inEnd = false ∧ (pins false false true true 0).inEnd = true ∧
    (pins false true false true 0).inValid = false ∧ (pins false false true true 0).start = false := by decide

theorem witness_SerialTransitionTable :
    event (pins true true true true 0) .busy = .reset ∧ event (pins false true true true 0) .err = .start ∧
    (event (pins false true true false 0xFF) .busy = .byte 0xFF ∧ (onStream 0 7 []).idx.toNat ≤ 7 ∧
      (0xFF : Byte).getLsbD 7 = true) ∧
    (event (pins false true true false 0x7F) .busy = .byte 0x7F ∧ (0x7F : Byte).getLsbD 7 = false) ∧
    (onStream 0 8 []).idx = 8 ∧
    (event (pins false false true true 0) .busy = .endOfBuffer ∧ (onStream 0 8 []).idx.toNat ≤ 8) ∧
    event (pins false true false false 0) .busy = .nothing := by decide

theorem witness_SerialOutputsFollowState :
    (holding .done 0x80 2 []).ph = .done ∧ event (pins false false true false 0xFF) .done ≠ .start ∧
    event (pins false false true false 0xFF) .done ≠ .reset ∧
    regs (edge (pins false false true false 0xFF) (holding .done 0x80 2 [])) = some (.done, 0x80, 2) ∧
    event (pins true false false false 0) .done = .reset ∧
    regs (edge (pins true false false false 0) (holding .done 0x80 2 [])) = some (.idle, 0, 0) := by decide

theorem witness_StartWhileBusyIsIgnored :
    let s := onStream 1 1 [.start (ask [0x00])]
    s.ph = .busy ∧ s.src = .stream ∧ s.host = .start (ask [0x00]) :: [] ∧
    (onStream 1 1 [.decode (ask [0x00])]).host = .decode (ask [0x00]) :: [] ∧
    (pins false true false false 0).rst = false ∧ (pins false true false false 0).inValid = false := by decide

theorem witness_ResultForgetsEarlierDecodes :
    let s := { holding .done 0x80 2 [] with host := [.decode (ask [0x81, 0x00])] }
    let s' := { holding .err 0 0 [0xFF] with host := [.decode (ask [0x81, 0x00])] }
    s.ph ≠ .busy ∧ s'.ph ≠ .busy ∧ s.host = .decode (ask [0x81, 0x00]) :: [] ∧
    s'.host = .decode (ask [0x81, 0x00]) :: [] ∧ regs (step s) = some (.done, 0x80, 2) := by decide

theorem witness_BufferIsNeverWritten :
    regs (step (holding .busy 0 0 [0x00])) = some (.done, 0, 1) ∧
    regs (step { State.reset with host := [.decode (ask [0x00])] }) = some (.done, 0, 1) := by decide

/-- The invariant holds of a decode in progress, of one that ended well with nine bytes, and of one that failed. -/
theorem witness_StepKeepsInvariant :
    StateInv (holding .busy 1 1 [0x81, 0x00]) ∧ StateInv (holding .err 0 0 [0x81]) ∧
    regs (step (holding .busy 1 1 [0x81, 0x00])) = some (.done, 0x80, 2) := by
  refine ⟨⟨by decide, by simp [RegsInv, holding], fun _ => ?_⟩, ⟨by decide, ⟨rfl, rfl⟩, fun _ => ?_⟩, by decide⟩
  · refine ⟨by decide, fun i hi => ⟨0x81, ?_, by decide⟩, by decide⟩
    obtain rfl : i = 0 := Nat.lt_one_iff.1 hi
    decide
  · refine ⟨by decide, fun i hi => ⟨0x81, ?_, by decide⟩⟩
    obtain rfl : i = 0 := Nat.lt_one_iff.1 hi
    decide

theorem witness_TopBitOnlyAfterNineBytes :
    let s := { State.reset with ph := .done, acc := 0xFFFFFFFFFFFFFFFF, idx := 9, src := .stream }
    StateInv s ∧ s.acc.getLsbD 63 = true :=
  ⟨⟨by decide, ⟨by decide, by decide, fun h => absurd h (by decide)⟩, fun h => by cases h⟩, by decide⟩

theorem witness_TruthfulHostIsNeverStopped :
    let s := { State.reset with host := [.decode (ask [0x81, 0x00]), .edge (pins true false false false 0)] }
    StateInv s ∧ s.truthful :=
  ⟨⟨by decide, ⟨rfl, rfl⟩, fun _ => trivial⟩, fun h => (by cases h), by
    intro m hm
    rcases List.mem_pair.1 hm with rfl | rfl
    · exact Nat.le_refl 2
    · trivial⟩

theorem witness_ModelStopsByName :
    ((holding .busy 0 9 []).runsAlone = true ∧ 9 ≤ (holding .busy 0 9 []).idx.toNat) ∧
    ((holding .busy 0 8 []).ph = .busy ∧ (Instr.cont 0).isByteClass = true ∧
      (Instr.cont 0).legalAt (holding .busy 0 8 []).idx.toNat = false ∧ (Instr.last 0).legalAt 7 = false) ∧
    (let s := { holding .busy 0 8 [] with len := 9 };
      s.runsAlone = true ∧ s.idx.toNat ≤ 8 ∧ s.idx.toNat < s.len ∧ Memory.read s.mem s.idx.toNat = none) := by decide

theorem witness_ModelStopsByName_host :
    (let p := pins false false true false 0x00;
      let s := onStream 0 15 [.edge p];
      s.ph = .busy ∧ s.src = .stream ∧ s.host = .edge p :: [] ∧ p.rst = false ∧ p.inValid = true ∧ 9 ≤ s.idx.toNat) ∧
    (let r : Request := { bytes := List.replicate 8 0x80, len := 9 };
      let s := { State.reset with host := [.decode r] };
      s.ph ≠ .busy ∧ s.host = .decode r :: [] ∧ r.bytes.length < r.len ∧ r.bytes.length ≤ 8 ∧
      ∀ b ∈ r.bytes, contBit b = true) := by decide

theorem witness_BufferIsArgumentOfBlockStep :
    (holding .busy 1 1 [0x81, 0x00]).runsAlone = true ∧
    regs (step (holding .busy 1 1 [0x81, 0x00])) = some (.done, 0x80, 2) ∧ Block.afterReset.ph ≠ .busy ∧
    1 < (holding .busy 1 1 [0x81, 0x00]).toBuffer.len ∧
    Memory.read (holding .busy 1 1 [0x81, 0x00]).toBuffer.mem 1 = some 0x00 := by decide

end Sys2Proof.Tests
end

/-! Proofs about the state of the block (10): what is read off the registers, the block's own step relation, and the
decode as a function of its buffer. -/

namespace Sys2Proof.Machine

-- ==== What is read off the registers (10 R23 to R25, 41 R108) ====

@[simp] theorem State.doneFlag_eq_true (s : State) : s.doneFlag = true ↔ s.ph = .done := by simp [State.doneFlag]
@[simp] theorem State.doneFlag_eq_false (s : State) : s.doneFlag = false ↔ s.ph ≠ .done := by simp [State.doneFlag]
@[simp] theorem State.errFlag_eq_true (s : State) : s.errFlag = true ↔ s.ph = .err := by simp [State.errFlag]
@[simp] theorem State.errFlag_eq_false (s : State) : s.errFlag = false ↔ s.ph ≠ .err := by simp [State.errFlag]

theorem State.status_done {s : State} (h : s.ph = .done) : s.status = some 0#1 := by simp [State.status, h]
theorem State.status_err {s : State} (h : s.ph = .err) : s.status = some 1#1 := by simp [State.status, h]

theorem State.value_done {s : State} (h : s.ph = .done) : s.value = s.acc := by simp [State.value, h]
theorem State.value_not_done {s : State} (h : s.ph ≠ .done) : s.value = 0 := by simp [State.value, h]

theorem State.consumed_done {s : State} (h : s.ph = .done) : s.consumed = s.idx := by simp [State.consumed, h]
theorem State.consumed_not_done {s : State} (h : s.ph ≠ .done) : s.consumed = 0 := by simp [State.consumed, h]

theorem State.result_done {s : State} (h : s.ph = .done) : s.result = some (.ok (s64 s.acc) s.idx.toNat) := by
  simp [State.result, h]
theorem State.result_err {s : State} (h : s.ph = .err) : s.result = some (.error .truncatedInput) := by
  simp [State.result, h]

/-- Before a decode has ended, `status` has no meaning and there is no result (10 R31). -/
theorem State.status_result_of_not_ended {s : State} (h : s.ph = .busy ∨ s.ph = .idle) :
    s.status = none ∧ s.result = none := by
  rcases h with h | h <;> simp [State.status, State.result, h]

/-- The result is read off the three registers and nothing else. -/
theorem State.result_congr {s t : State} (h : s.toBlock = t.toBlock) : s.result = t.result := by
  simp [State.result, h]

/-- The count of a decode that ended well is in 1 to 9 (10 R24). -/
theorem StateInv.idx_range_of_done {s : State} (hs : StateInv s) (h : s.ph = .done) :
    1 ≤ s.idx.toNat ∧ s.idx.toNat ≤ 9 := by
  obtain ⟨-, hregs, -⟩ := hs
  rw [RegsInv, h] at hregs
  exact ⟨hregs.1, hregs.2.1⟩

-- ==== What the block does, carried to the machine ====

/-- A step of the block that answers a next state gives that block and leaves the buffer as it was. -/
theorem State.lift_eq_next {s t : State} {o : Host.Outcome Block Fault Refusal} (h : s.lift o = .next t) :
    o = .next t.toBlock ∧ t.toBuffer = s.toBuffer := by
  cases o with
  | next b => cases h; exact ⟨rfl, rfl⟩
  | fault f => cases h
  | refused r => cases h

/-- After a fetch that is no length form, the machine does what the block does (41 R102). -/
theorem afterFetch_eq_lift {f : Fetched} (hf : ∀ i, f = .instr i → i.isByteClass = true) (s : State) :
    afterFetch f s = s.lift (Block.afterFetch f s.toBlock) := by
  cases f with
  | instr i =>
    have hi := hf i rfl
    cases i
    case cont => rfl
    case term => rfl
    case last => rfl
    all_goals cases hi
  | noByte => rfl
  | notSupplied => rfl
  | outOfRange => rfl

/-- A byte step of the machine is the block's step relation on the buffer handed over (10 R29). -/
theorem byteStep_eq_lift {s : State} (h : s.ph = .busy) : byteStep s = s.lift (s.toBlock.step s.toBuffer) := by
  rw [byteStep, afterFetch_eq_lift (fun _ => fetchByte_isByteClass), Block.step, if_pos h]

/-- The block alone on its buffer steps by its own relation. -/
theorem step_eq_lift {s : State} (h : s.runsAlone = true) : step s = s.lift (s.toBlock.step s.toBuffer) := by
  rw [step_alone h, byteStep_eq_lift ((s.runsAlone_iff).1 h).1]

/-- Outside `BUSY` the block has no step (41 R107). -/
theorem Block.step_not_busy {b : Block} (h : b.ph ≠ .busy) (buf : Buffer) : b.step buf = .next b := if_neg h

-- ==== The decode as a function of its buffer (10 R26, 40 R80) ====

/-- The decoder of whole varints answers length forms only (30 R66). -/
theorem decodeVarint_isLengthForm {bs rest : List Byte} {i : Instr} (h : decodeVarint bs = .ok (i, rest)) :
    i.isByteClass = false := by
  revert h
  fun_cases decodeVarint bs
  all_goals
    intro h
    cases h
  all_goals rfl

/-- No fetch of a whole varint yields a byte class. -/
theorem fetchVarint_isLengthForm {buf : Buffer} {i : Instr} (h : fetchVarint buf = .instr i) :
    i.isByteClass = false := by
  unfold fetchVarint at h
  split at h
  · split at h
    · next hd => cases h; exact decodeVarint_isLengthForm hd
    · cases h
  · cases h
  · cases h

/-- A length form writes one block, whatever state it runs from (log entry 8). -/
theorem exec_lengthForm {i : Instr} (hi : i.isByteClass = false) : ∃ b : Block, ∀ s, exec i s = s.lift (.next b) := by
  cases i
  case cont => cases hi
  case term => cases hi
  case last => cases hi
  all_goals exact ⟨_, fun _ => rfl⟩

/-- The operation DECODE has one outcome for each buffer, whatever the registers held before. -/
theorem decodeStep_eq_lift (buf : Buffer) :
    ∃ o : Host.Outcome Block Fault Refusal, ∀ s : State, s.toBuffer = buf → decodeStep s = s.lift o := by
  suffices h : ∃ o : Host.Outcome Block Fault Refusal, ∀ s : State, afterFetch (fetchVarint buf) s = s.lift o by
    obtain ⟨o, ho⟩ := h
    exact ⟨o, fun s hs => by rw [decodeStep, hs, ho]⟩
  cases hf : fetchVarint buf with
  | instr i =>
    obtain ⟨b, hb⟩ := exec_lengthForm (fetchVarint_isLengthForm hf)
    exact ⟨.next b, hb⟩
  | noByte => exact ⟨.next Block.truncated, fun _ => rfl⟩
  | notSupplied => exact ⟨.refused .byteNotSupplied, fun _ => rfl⟩
  | outOfRange => exact ⟨.fault .indexOutOfRange, fun _ => rfl⟩

/-- The move `decode`, taken outside `BUSY`, is the operation DECODE on the buffer handed over (43 R140). -/
theorem step_decode {s : State} {r : Request} {rest : List HostMove} (h : s.ph ≠ .busy)
    (hh : s.host = .decode r :: rest) : step s = decodeStep ((s.setHost rest).handOver r) := by
  rw [step_host (State.runsAlone_of_not_busy h) hh]
  exact if_neg h

-- ==== The phase after a byte class (10 R25) ====

/-- In `BUSY`, `CONT` leaves the phase, and `TERM` and `LAST` end the decode well. -/
theorem exec_byteClass_ph {s t : State} {i : Instr} (hb : s.ph = .busy) (hi : i.isByteClass = true)
    (h : exec i s = .next t) : ((∃ p, i = .cont p) ∧ t.ph = .busy) ∨ ((¬ ∃ p, i = .cont p) ∧ t.ph = .done) := by
  have written : ∀ {legal ph acc}, s.lift (Block.byteClass legal ph acc s.toBlock) = .next t → t.ph = ph := by
    intro legal ph acc hl
    rcases lift_byteClass_next hl with ⟨hn, -⟩ | ⟨-, -, rfl⟩
    · exact absurd hb hn
    · rfl
  cases i
  case cont p => exact .inl ⟨⟨p, rfl⟩, written h⟩
  case term => exact .inr ⟨by simp, written h⟩
  case last => exact .inr ⟨by simp, written h⟩
  all_goals cases hi

-- ==== The statements ====

/-- Settles O51: both steps are the operation DECODE on the same buffer, which has one outcome. -/
theorem resultForgetsEarlierDecodes : Obligations.ResultForgetsEarlierDecodes := by
  unfold Obligations.ResultForgetsEarlierDecodes
  intro s s' r rest rest' hs hs' hh hh' t ht
  obtain ⟨o, ho⟩ := decodeStep_eq_lift { mem := Memory.ofBytes r.bytes, len := r.len }
  rw [step_decode hs hh, ho _ rfl] at ht
  obtain ⟨rfl, -⟩ := State.lift_eq_next ht
  rw [step_decode hs' hh', ho _ rfl, State.lift_next]
  exact ⟨_, rfl, rfl, rfl, rfl, State.result_congr rfl⟩

/-- Settles O58: the machine alone on its buffer is the block's step relation, lifted. -/
theorem bufferIsArgumentOfBlockStep : Obligations.BufferIsArgumentOfBlockStep := by
  unfold Obligations.BufferIsArgumentOfBlockStep
  refine ⟨fun s => step_eq_lift, fun s t ha ht => ?_, fun buf b hb => Block.step_not_busy hb buf,
    fun buf i b => memRead_byte⟩
  rw [step_eq_lift ha] at ht
  exact (State.lift_eq_next ht).symm

/-- Settles O1: neither moment is the end of a decode. -/
theorem resetAndStartValues : Obligations.ResetAndStartValues := by
  unfold Obligations.ResetAndStartValues
  constructor
  · have hph : State.reset.ph = .idle := rfl
    obtain ⟨hstatus, hresult⟩ := State.status_result_of_not_ended (.inr hph)
    exact ⟨rfl, rfl, hph, by simp [hph], by simp [hph], hstatus, State.value_not_done (by simp [hph]),
      State.consumed_not_done (by simp [hph]), hresult⟩
  · intro s src
    obtain ⟨hstatus, hresult⟩ := State.status_result_of_not_ended (.inl (s.startDecode_ph src))
    exact ⟨by simp, by simp, by simp, by simp, by simp, hstatus, State.value_not_done (by simp),
      State.consumed_not_done (by simp), hresult, by simp, by simp⟩

/-- Settles O4, by the view of the registers in each phase and the range of the index in the invariant. -/
theorem resultIsReadOffRegisters : Obligations.ResultIsReadOffRegisters := by
  unfold Obligations.ResultIsReadOffRegisters
  intro s
  refine ⟨fun h => ⟨State.value_done h, State.consumed_done h, State.result_done h⟩, State.result_err,
    fun h => ⟨State.value_not_done h, State.consumed_not_done h⟩,
    fun h => (State.status_result_of_not_ended h).2, fun hs h => ?_⟩
  rw [State.consumed_done h]
  exact hs.idx_range_of_done h

/-- Settles O5: each flag is a test of the phase, and a byte class leaves `BUSY` or makes it `DONE`. -/
theorem flagsFollowPhase : Obligations.FlagsFollowPhase := by
  unfold Obligations.FlagsFollowPhase
  refine ⟨fun s => ⟨s.doneFlag_eq_true, s.errFlag_eq_true, ?_, ?_, ?_⟩, fun s t i hb hi h => ?_, by simp, by simp,
    by simp⟩
  · rw [State.doneFlag_eq_true, State.errFlag_eq_true]
    rintro ⟨hd, he⟩
    cases hd.symm.trans he
  · exact fun h => State.status_done (s.doneFlag_eq_true.1 h)
  · exact fun h => State.status_err (s.errFlag_eq_true.1 h)
  · rcases exec_byteClass_ph hb hi h with ⟨hc, hph⟩ | ⟨hc, hph⟩ <;> simp [hph, hc]

end Sys2Proof.Machine

/-! Proofs about the buffer (20): what `MemRead` answers on either side of `len`, and the byte step that asked past it. -/

namespace Sys2Proof.Machine

-- ==== `MemRead` and its bound (20 R41) ====

/-- Below `len`, `MemRead` on a buffer just handed over answers the byte the host supplied there. -/
theorem memRead_handOver {r : Request} {i : Nat} {b : Byte} (hi : i < r.len) (hb : r.bytes[i]? = some b) (s : State) :
    memRead (s.handOver r).toBuffer i = .byte b :=
  memRead_byte hi ((Memory.read_ofBytes r.bytes i).trans hb)

/-- A byte step at an index of 0 to 8 that has reached `len` takes `TruncatedInput` (41 R102, R106). -/
theorem byteStep_noByte {s : State} (hi : s.idx.toNat ≤ 8) (hl : s.len ≤ s.idx.toNat) :
    byteStep s = .next s.raiseTruncated := by
  rw [byteStep, fetchByte_noByte hi hl, afterFetch]

/-- The block alone on its buffer, at an index of 0 to 8 that has reached `len`, takes `TruncatedInput`. -/
theorem step_noByte {s : State} (ha : s.runsAlone = true) (hi : s.idx.toNat ≤ 8) (hl : s.len ≤ s.idx.toNat) :
    step s = .next s.raiseTruncated := by
  rw [step_alone ha, byteStep_noByte hi hl]

/-- Settles O19, by the bounds test of `MemRead` and the byte step that finds no byte. -/
theorem memReadIsBounded : Obligations.MemReadIsBounded := by
  unfold Obligations.MemReadIsBounded
  exact ⟨fun s r i b hi hb => memRead_handOver hi hb s, fun s i => memRead_noByte, fun s => step_noByte⟩

end Sys2Proof.Machine

/-! Proofs about the encoding (30): the signed reading of the accumulator, the class of a byte, the length forms and
where each one ends, the bytes after the varint, and the patterns of the opcode table. -/

namespace Sys2Proof.Machine

-- ==== The sign bit (30 R69) ====

/-- The signed reading of the accumulator: its number, less `2^64` when bit 63 is set. -/
theorem s64_eq_toNat_cond (acc : Acc) :
    s64 acc = if acc.getLsbD 63 then (acc.toNat : Int) - 2 ^ 64 else (acc.toNat : Int) := by
  rw [s64, BitVec.toInt_eq_msb_cond, BitVec.msb_eq_getLsbD_last]
  norm_num

/-- Settles O6: `s64` reads two's complement of 64 bits, and the result in `DONE` is that reading. -/
theorem signBitIsBit63 : Obligations.SignBitIsBit63 := by
  unfold Obligations.SignBitIsBit63
  exact ⟨s64_eq_toNat_cond, fun s h => ⟨_, State.result_done h, s64_eq_toNat_cond s.acc⟩⟩

-- ==== The class of a byte (30 R61 to R64) ====

/-- The mask `0x80` keeps nothing of a byte whose continuation bit is clear (00 R7). -/
theorem contBit_eq_false_iff_mask : ∀ b : Byte, contBit b = false ↔ b &&& Config.contMask = 0x00#8 := by decide

theorem decodeByte_noFormat {idx : Nat} (h : 8 < idx) (b : Byte) : decodeByte idx b = .error .noFormat := by
  simp [decodeByte, Nat.not_lt.2 h.le, h.ne']

/-- Settles O7, by the class of a byte on each side of index 8 and the two masks. -/
theorem indexDecidesByteFormat : Obligations.IndexDecidesByteFormat := by
  unfold Obligations.IndexDecidesByteFormat
  intro idx b
  refine ⟨fun hi hb => ?_, fun hi hb => ?_, ?_, fun hi => decodeByte_noFormat hi b⟩
  · exact ⟨payload b, payload_toNat_mask b, decodeByte_cont (Nat.lt_succ_of_le hi) ((contBit_iff_mask b).2 hb)⟩
  · exact ⟨payload b, payload_toNat_mask b,
      decodeByte_term (Nat.lt_succ_of_le hi) ((contBit_eq_false_iff_mask b).2 hb)⟩
  · rintro rfl
    exact decodeByte_last b

-- ==== The decoder and the encoder of length forms (30 R65, R66) ====

/-- Decoding a length form's encoding gives the form back, and leaves the bytes that follow it. -/
theorem decodeVarint_encode {i : Instr} (hi : i.isByteClass = false) (rest : List Byte) :
    decodeVarint (encode i ++ rest) = .ok (i, rest) := by
  cases i
  case cont => cases hi
  case term => cases hi
  case last => cases hi
  all_goals simp [encode, decodeVarint]

/-- The bytes the decoder reads are the encoding of the form it answers. -/
theorem encode_of_decodeVarint {bs rest : List Byte} {i : Instr} (h : decodeVarint bs = .ok (i, rest)) :
    encode i ++ rest = bs := by
  revert h
  fun_cases decodeVarint bs
  all_goals
    intro h
    cases h
  all_goals simp_all [encode, contByte_payload, termByte_payload]

/-- The decoder answers no form only when fewer than nine bytes stand there and all have bit 7 set (30 R73). -/
theorem cont_of_decodeVarint_error {bs : List Byte} {r : Reject} (h : decodeVarint bs = .error r) :
    bs.length < 9 ∧ ∀ b ∈ bs, contBit b = true := by
  revert h
  fun_cases decodeVarint bs
  all_goals
    intro h
    cases h
  all_goals simp_all

/-- The bytes of a length form: at most eight continuation bytes, then one byte, whose bit 7 is clear unless it is the
ninth (30 R65). -/
theorem encode_lengthForm {i : Instr} (hi : i.isByteClass = false) :
    ∃ (ps : List Payload) (d : Byte), encode i = ps.map contByte ++ [d] ∧ i.size = ps.length + 1 ∧ ps.length ≤ 8 ∧
      (ps.length ≤ 7 → contBit d = false) := by
  cases i with
  | cont => cases hi
  | term => cases hi
  | last => cases hi
  | v1 a => exact ⟨[], termByte a, rfl, rfl, by simp, fun _ => contBit_termByte a⟩
  | v2 a b => exact ⟨[a], termByte b, rfl, rfl, by simp, fun _ => contBit_termByte b⟩
  | v3 a b c => exact ⟨[a, b], termByte c, rfl, rfl, by simp, fun _ => contBit_termByte c⟩
  | v4 a b c d => exact ⟨[a, b, c], termByte d, rfl, rfl, by simp, fun _ => contBit_termByte d⟩
  | v5 a b c d e => exact ⟨[a, b, c, d], termByte e, rfl, rfl, by simp, fun _ => contBit_termByte e⟩
  | v6 a b c d e f => exact ⟨[a, b, c, d, e], termByte f, rfl, rfl, by simp, fun _ => contBit_termByte f⟩
  | v7 a b c d e f g => exact ⟨[a, b, c, d, e, f], termByte g, rfl, rfl, by simp, fun _ => contBit_termByte g⟩
  | v8 a b c d e f g h =>
    exact ⟨[a, b, c, d, e, f, g], termByte h, rfl, rfl, by simp, fun _ => contBit_termByte h⟩
  | v9 a b c d e f g h d9 => exact ⟨[a, b, c, d, e, f, g, h], d9, rfl, rfl, by simp, by simp⟩

/-- Where a length form ends: `t` bytes with bit 7 set stand before its last byte, whose bit 7 is clear unless it is the
ninth; the rest is what stands after it. -/
theorem decodeVarint_ok {bs rest : List Byte} {i : Instr} (h : decodeVarint bs = .ok (i, rest)) :
    ∃ t ≤ 8, i.size = t + 1 ∧ rest = bs.drop (t + 1) ∧ (∀ j < t, contBit (bs.getD j 0) = true) ∧
      (t ≤ 7 → contBit (bs.getD t 0) = false) := by
  obtain ⟨ps, d, henc, hsize, hlen, hd⟩ := encode_lengthForm (decodeVarint_isLengthForm h)
  have hbs : ps.map contByte ++ d :: rest = bs := by
    rw [← encode_of_decodeVarint h, henc, List.append_assoc, List.singleton_append]
  refine ⟨ps.length, hlen, hsize, ?_, fun j hj => ?_, fun ht => ?_⟩
  · rw [← hbs, List.drop_append]
    simp
  · rw [← hbs, List.getD_append _ _ _ _ (by simpa using hj), List.getD_eq_getElem _ _ (by simpa using hj)]
    simp
  · rw [← hbs, List.getD_append_right _ _ _ _ (by simp)]
    simpa using hd ht

/-- Where some byte has bit 7 clear, or nine bytes stand, the decoder answers a form (30 R65, R73). -/
theorem decodeVarint_answers {bs : List Byte} (h : 9 ≤ bs.length ∨ ∃ b ∈ bs, contBit b = false) :
    ∃ i rest, decodeVarint bs = .ok (i, rest) := by
  cases hd : decodeVarint bs with
  | ok a => exact ⟨a.1, a.2, rfl⟩
  | error r =>
    obtain ⟨hlen, hall⟩ := cont_of_decodeVarint_error hd
    rcases h with h | ⟨b, hb, hc⟩
    · omega
    · simp [hall b hb] at hc

/-- Settles O12: the form's own last byte is the first of indices 0 to 7 with bit 7 clear, or the ninth. -/
theorem lengthIsToldByOwnBytes : Obligations.LengthIsToldByOwnBytes := by
  unfold Obligations.LengthIsToldByOwnBytes
  constructor
  · intro bs t ht hlt hclear hset
    have hmem : bs.getD t 0 ∈ bs := by
      rw [List.getD_eq_getElem _ _ hlt]
      exact List.getElem_mem hlt
    obtain ⟨i, rest, hd⟩ := decodeVarint_answers (.inr ⟨_, hmem, hclear⟩)
    obtain ⟨u, -, hsize, rfl, hu, hlast⟩ := decodeVarint_ok hd
    obtain rfl : u = t := by
      rcases Nat.lt_trichotomy u t with h | h | h
      · exact absurd (hset u h) (by simpa using hlast (by omega))
      · exact h
      · exact absurd (hu t h) (by simpa using hclear)
    exact ⟨i, hd, hsize⟩
  · intro bs hlen hset
    obtain ⟨i, rest, hd⟩ := decodeVarint_answers (.inl hlen)
    obtain ⟨u, hu8, hsize, rfl, -, hlast⟩ := decodeVarint_ok hd
    obtain rfl : u = 8 := by
      by_contra hne
      have hu : u < 8 := Nat.lt_of_le_of_ne hu8 hne
      exact absurd (hset u hu) (by simpa using hlast (by omega))
    exact ⟨i, hd, hsize⟩

-- ==== The bytes after the varint (30 R72) ====

/-- The loop of DECODE reads no byte from the count it answers on: other bytes may stand there. -/
theorem decodeLoop_take_append {buf : List Byte} {i k : Nat} {acc : Acc} {v : Int} (hi : i ≤ 8)
    (h : decodeLoop i acc buf = .ok v k) (tail : List Byte) :
    i < k ∧ decodeLoop i acc (buf.take (k - i) ++ tail) = .ok v k := by
  induction buf generalizing i acc with
  | nil => cases h
  | cons b bs ih =>
    rcases Nat.lt_or_eq_of_le hi with hlt | rfl
    · cases hb : contBit b
      · rw [decodeLoop_term hlt hb] at h
        cases h
        simp [decodeLoop_term hlt hb]
      · rw [decodeLoop_cont hlt hb] at h
        obtain ⟨hk, htake⟩ := ih hlt h
        refine ⟨by omega, ?_⟩
        rw [show k - i = k - (i + 1) + 1 by omega, List.take_succ_cons, List.cons_append,
          decodeLoop_cont hlt hb, htake]
    · rw [decodeLoop_last] at h
      cases h
      simp [decodeLoop_last]

/-- Settles O31: DECODE is its loop from index 0. -/
theorem trailingBytesHaveNoInfluence : Obligations.TrailingBytesHaveNoInfluence := by
  unfold Obligations.TrailingBytesHaveNoInfluence
  exact fun buf tail v k h => (decodeLoop_take_append (Nat.zero_le 8) h tail).2

-- ==== The patterns of the length forms (30 R66) ====

/-- The bytes of a word extended by one byte at its least significant end. -/
theorem bytesOfWord_append (k : Nat) {n : Nat} (w : BitVec n) (b : Byte) :
    bytesOfWord (k + 1) (w ++ b).toNat = bytesOfWord k w.toNat ++ [b] := by
  have hlow : BitVec.ofNat 8 (w ++ b).toNat = b := by
    rw [BitVec.ofNat_toNat, BitVec.setWidth_append_eq_right]
  have hhigh : (w ++ b).toNat >>> 8 = w.toNat := by
    rw [BitVec.toNat_append, Nat.shiftRight_or_distrib, Nat.shiftLeft_shiftRight,
      Nat.shiftRight_eq_zero _ _ b.isLt, Nat.or_zero]
  induction k with
  | zero => simpa [bytesOfWord] using hlow
  | succ k ih =>
    have hshift : (w ++ b).toNat >>> (8 * (k + 1)) = w.toNat >>> (8 * k) := by
      rw [← hhigh, ← Nat.shiftRight_add, Nat.mul_succ, Nat.add_comm (8 * k) 8]
    rw [bytesOfWord, ih, hshift]
    rfl

/-- The word `w` has the mask `m` and the match `v`, and it is the bytes `bs`, the first the most significant. -/
def Spells {n : Nat} (w m v : BitVec n) (bs : List Byte) : Prop :=
  w &&& m = v ∧ bytesOfWord bs.length w.toNat = bs

theorem Spells.byte {b c d : Byte} (hb : b &&& c = d) : Spells b c d [b] :=
  ⟨hb, by simp [bytesOfWord]⟩

/-- One more byte at the least significant end of a pattern. -/
theorem Spells.append {n : Nat} {w m v : BitVec n} {bs : List Byte} (h : Spells w m v bs) {b c d : Byte}
    (hb : b &&& c = d) : Spells (w ++ b) (m ++ c) (v ++ d) (bs ++ [b]) := by
  obtain ⟨hmask, hbytes⟩ := h
  constructor
  · rw [BitVec.and_append, hmask, hb]
  · rw [List.length_append, List.length_singleton, bytesOfWord_append, hbytes]

theorem contByte_mask (p : Payload) : contByte p &&& Config.contMask = Config.contMask :=
  (contBit_iff_mask _).1 (contBit_contByte p)
theorem termByte_mask (p : Payload) : termByte p &&& Config.contMask = 0x00#8 :=
  (contBit_eq_false_iff_mask _).1 (contBit_termByte p)

theorem Spells.lead (p : Payload) : Spells (1#1 ++ p : Byte) 0x80#8 0x80#8 [contByte p] := .byte (contByte_mask p)

/-- A format bit and a payload, appended one after the other, are one byte appended. -/
theorem append_bit_payload {n : Nat} (w : BitVec n) (c : BitVec 1) (p : Payload) :
    w ++ c ++ p = w ++ (c ++ p : Byte) := by
  rw [BitVec.append_assoc]
  rfl

theorem Spells.cont {n : Nat} {w m v : BitVec n} {bs : List Byte} (h : Spells w m v bs) (p : Payload) :
    Spells (w ++ 1#1 ++ p) (m ++ 0x80#8) (v ++ 0x80#8) (bs ++ [contByte p]) := by
  rw [append_bit_payload]
  exact h.append (contByte_mask p)

theorem Spells.term {n : Nat} {w m v : BitVec n} {bs : List Byte} (h : Spells w m v bs) (p : Payload) :
    Spells (w ++ 0#1 ++ p) (m ++ 0x80#8) (v ++ 0x00#8) (bs ++ [termByte p]) := by
  rw [append_bit_payload]
  exact h.append (termByte_mask p)

theorem Spells.last {n : Nat} {w m v : BitVec n} {bs : List Byte} (h : Spells w m v bs) (d : Byte) :
    Spells (w ++ d) (m ++ 0x00#8) (v ++ 0x00#8) (bs ++ [d]) :=
  h.append BitVec.and_zero

/-- A word that spells a length form is read as that form. -/
theorem Spells.decodes {n : Nat} {w m v : BitVec n} {i : Instr} (h : Spells w m v (encode i))
    (hi : i.isByteClass = false) : decodeVarint (bytesOfWord (encode i).length w.toNat) = .ok (i, []) := by
  rw [h.2, ← List.append_nil (encode i), decodeVarint_encode hi]

/-- A word of two bytes or more that spells a length form has its mask and match and is read as that form. -/
theorem Spells.tableWord_decodes {n : Nat} {w m v : BitVec n} {i : Instr} (h : Spells w m v (encode i))
    (hi : i.isByteClass = false) (hn : n / 8 = (encode i).length) (h8 : n ≠ 8) :
    w &&& m = v ∧ decodeTableWord n w.toNat = some i := by
  refine ⟨h.1, ?_⟩
  rw [decodeTableWord, if_neg h8, hn, h.decodes hi]
  rfl

/-- Settles O8: each pattern is spelled byte by byte, the leading bytes' format bits making its mask and match. -/
theorem lengthFormPatternsDecode : Obligations.LengthFormPatternsDecode := by
  unfold Obligations.LengthFormPatternsDecode
  refine ⟨fun a => ⟨termByte_mask a, ?_⟩, fun a b => ?_, fun a b c => ?_, fun a b c d => ?_, fun a b c d e => ?_,
    fun a b c d e f => ?_, fun a b c d e f g => ?_, fun a b c d e f g h => ?_, fun a b c d e f g h d9 => ?_⟩
  · exact (Spells.byte (termByte_mask a)).decodes (i := .v1 a) rfl
  · exact ((Spells.lead a).term b).tableWord_decodes (i := .v2 a b) rfl rfl (by decide)
  · exact (((Spells.lead a).cont b).term c).tableWord_decodes (i := .v3 a b c) rfl rfl (by decide)
  · exact ((((Spells.lead a).cont b).cont c).term d).tableWord_decodes (i := .v4 a b c d) rfl rfl (by decide)
  · exact (((((Spells.lead a).cont b).cont c).cont d).term e).tableWord_decodes
      (i := .v5 a b c d e) rfl rfl (by decide)
  · exact ((((((Spells.lead a).cont b).cont c).cont d).cont e).term f).tableWord_decodes
      (i := .v6 a b c d e f) rfl rfl (by decide)
  · exact (((((((Spells.lead a).cont b).cont c).cont d).cont e).cont f).term g).tableWord_decodes
      (i := .v7 a b c d e f g) rfl rfl (by decide)
  · exact ((((((((Spells.lead a).cont b).cont c).cont d).cont e).cont f).cont g).term h).tableWord_decodes
      (i := .v8 a b c d e f g h) rfl rfl (by decide)
  · exact (((((((((Spells.lead a).cont b).cont c).cont d).cont e).cont f).cont g).cont h).last d9).tableWord_decodes
      (i := .v9 a b c d e f g h d9) rfl rfl (by decide)

end Sys2Proof.Machine

/-! Proofs about the operation DECODE (40): the count of bytes it examines, and the value of a single byte. -/

namespace Sys2Proof.Machine

-- ==== The count (40 R85) ====

/-- Where the loop of DECODE ends from byte index `i`: it passes `t` bytes with bit 7 set and answers on the next one,
whose bit 7 is clear unless it is the ninth byte of the buffer. -/
theorem decodeLoop_ok {buf : List Byte} {i k : Nat} {acc : Acc} {v : Int} (hi : i ≤ 8)
    (h : decodeLoop i acc buf = .ok v k) :
    ∃ t < buf.length, k = i + t + 1 ∧ i + t ≤ 8 ∧ (∀ j < t, contBit (buf.getD j 0) = true) ∧
      (i + t ≤ 7 → contBit (buf.getD t 0) = false) := by
  induction buf generalizing i acc with
  | nil => cases h
  | cons b bs ih =>
    rcases Nat.lt_or_eq_of_le hi with hlt | rfl
    · cases hb : contBit b with
      | false =>
        rw [decodeLoop_term hlt hb] at h
        cases h
        exact ⟨0, by simp, rfl, hi, by simp, fun _ => hb⟩
      | true =>
        rw [decodeLoop_cont hlt hb] at h
        obtain ⟨t, ht, hk, h8, hset, hclear⟩ := ih hlt h
        refine ⟨t + 1, by simpa using ht, by omega, by omega, fun j hj => ?_, fun h7 => hclear (by omega)⟩
        cases j with
        | zero => exact hb
        | succ j => exact hset j (Nat.lt_of_succ_lt_succ hj)
    · rw [decodeLoop_last] at h
      cases h
      exact ⟨0, by simp, rfl, hi, by simp, by simp⟩

/-- Settles O28: the loop from index 0 answers on its first byte with bit 7 clear, or on the ninth. -/
theorem countOfBytesExamined : Obligations.CountOfBytesExamined := by
  unfold Obligations.CountOfBytesExamined
  intro buf v k h
  obtain ⟨u, hlen, rfl, hu8, hu, hlast⟩ := decodeLoop_ok (Nat.zero_le 8) h
  rw [Nat.zero_add] at hu8 hlast ⊢
  refine ⟨Nat.le_add_left 1 u, Nat.succ_le_succ hu8, fun t ht _ hclear hset => ?_, fun hnone => ?_⟩
  · rcases Nat.lt_trichotomy u t with hut | rfl | htu
    · exact absurd (hset u hut) (by simpa using hlast (by omega))
    · rfl
    · exact absurd (hu t htu) (by simpa using hclear)
  · have h7 : ¬ u ≤ 7 := fun h7 => hnone ⟨u, h7, hlen, hlast h7⟩
    omega

-- ==== A single byte (40 R90) ====

/-- Below `2^63` the signed reading of the accumulator is its number. -/
theorem s64_eq_toNat {acc : Acc} (h : acc.toNat < 2 ^ 63) : s64 acc = acc.toNat :=
  BitVec.toInt_eq_toNat_of_lt (by omega)

/-- A byte with bit 7 clear is its own payload. -/
theorem payload_toNat_of_clear : ∀ b : Byte, contBit b = false → (payload b).toNat = b.toNat := by decide

/-- The first payload, pushed into the accumulator of 0, is the number it holds. -/
theorem pushLead_zero_toNat (p : Payload) : (pushLead 0 p).toNat = p.toNat := by
  simpa using pushLead_toNat (acc := 0) (by decide) p

/-- Settles O32: the loop answers on byte 0 with its payload, which is the byte itself and too small for a sign. -/
theorem singleByteLaw : Obligations.SingleByteLaw := by
  unfold Obligations.SingleByteLaw
  intro b hb
  have hval : (pushLead 0 (payload b)).toNat = b.toNat := by
    rw [pushLead_zero_toNat, payload_toNat_of_clear b hb]
  rw [decodeOperation, decodeLoop_term (by decide) hb, s64_eq_toNat (by omega), hval]

end Sys2Proof.Machine

/-! Proofs about the byte steps (41): how a decode starts, what a fetch selects, and what `CONT`, `TERM`, `LAST` and the
missing byte do to the registers. -/

namespace Sys2Proof.Machine

-- ==== `START` and `TruncatedInput` (41 R101, R106) ====

/-- The move `start`, taken outside `BUSY`, hands the buffer over and starts the decode on it (41 R101). -/
theorem step_start {s : State} {r : Request} {rest : List HostMove} (h : s.ph ≠ .busy)
    (hh : s.host = .start r :: rest) : step s = .next (((s.setHost rest).handOver r).startDecode .buffer) := by
  rw [step_host (State.runsAlone_of_not_busy h) hh]
  exact if_neg h

/-- An edge with `start` outside `BUSY` starts a decode on the stream (43 R149). -/
theorem edge_start {p : Pins} {s : State} (h : s.ph ≠ .busy) (hrst : p.rst = false) (hstart : p.start = true) :
    edge p s = .next (s.startDecode .stream) := by
  rw [edge_not_busy h, hrst, hstart]
  rfl

/-- Settles O3: `startDecode` writes constants, and both ways of starting a decode lead to it. -/
theorem startBeginsFreshDecode : Obligations.StartBeginsFreshDecode := by
  unfold Obligations.StartBeginsFreshDecode
  exact ⟨fun s r rest => step_start, fun s p => edge_start, fun s src => ⟨rfl, rfl, rfl⟩, fun s src _ _ _ => rfl⟩

/-- Settles O20: the byte step that finds no byte takes `TruncatedInput`, and the rest is read off the phase `ERR`. -/
theorem truncatedInputIsTaken : Obligations.TruncatedInputIsTaken := by
  unfold Obligations.TruncatedInputIsTaken
  intro s ha hi hl
  have hph : s.raiseTruncated.ph = .err := rfl
  exact ⟨_, step_noByte ha hi hl, rfl, by simp, by simp, State.value_not_done (by simp),
    State.consumed_not_done (by simp), State.status_err hph, State.result_err hph⟩

-- ==== `FETCH` (41 R102) ====

/-- A supplied byte that stands for an instruction at the index is fetched as that instruction, which the byte step
executes. -/
theorem fetchByte_byteStep_of_decodeByte {s : State} {b : Byte} {i : Instr} (hi : s.idx.toNat ≤ 8)
    (hl : s.idx.toNat < s.len) (hr : Memory.read s.mem s.idx.toNat = some b) (hd : decodeByte s.idx.toNat b = .ok i) :
    fetchByte s.toBuffer s.idx = .instr i ∧ byteStep s = exec i s := by
  have hf : fetchByte s.toBuffer s.idx = .instr i := by
    rw [fetchByte_byte hi hl hr, classify, hd]
  exact ⟨hf, by rw [byteStep, hf, afterFetch]⟩

/-- Settles O18: past `len` there is no byte, and below it the index and bit 7 decide the class. -/
theorem fetchSelectsTheStep : Obligations.FetchSelectsTheStep := by
  unfold Obligations.FetchSelectsTheStep
  intro s _ hi
  refine ⟨fun hl => ⟨fetchByte_noByte hi hl, byteStep_noByte hi hl⟩,
    fun b hl hr => ⟨fun h7 hb => ?_, fun h7 hb => ?_, fun h8 => ?_⟩⟩
  · exact fetchByte_byteStep_of_decodeByte hi hl hr (decodeByte_cont (Nat.lt_succ_of_le h7) hb)
  · exact fetchByte_byteStep_of_decodeByte hi hl hr (decodeByte_term (Nat.lt_succ_of_le h7) hb)
  · exact fetchByte_byteStep_of_decodeByte hi hl hr (by rw [h8]; exact decodeByte_last b)

/-- The byte `1ppppppp` at index 0 to 7 (30 R64). -/
theorem decodeByte_contByte {idx : Nat} (h : idx ≤ 7) (p : Payload) : decodeByte idx (contByte p) = .ok (.cont p) := by
  rw [decodeByte_cont (Nat.lt_succ_of_le h) (contBit_contByte p), payload_contByte]

/-- The byte `0ppppppp` at index 0 to 7 (30 R64). -/
theorem decodeByte_termByte {idx : Nat} (h : idx ≤ 7) (p : Payload) : decodeByte idx (termByte p) = .ok (.term p) := by
  rw [decodeByte_term (Nat.lt_succ_of_le h) (contBit_termByte p), payload_termByte]

-- ==== What a byte class writes in `BUSY` (41 R103 to R105) ====

/-- In `BUSY`, a byte class at an index where it exists writes its phase and accumulator and advances the index. -/
theorem lift_byteClass_legal {s : State} {legal : Bool} (hb : s.ph = .busy) (hl : legal = true) (ph : Phase)
    (acc : Acc) : s.lift (Block.byteClass legal ph acc s.toBlock) = .next (s.setRegs ph acc (s.idx + 1)) := by
  rw [hl, Block.byteClass_busy hb]
  rfl

theorem exec_cont_busy {s : State} (hb : s.ph = .busy) (hi : s.idx.toNat ≤ 7) (p : Payload) :
    exec (.cont p) s = .next (s.setRegs .busy (pushLead s.acc p) (s.idx + 1)) :=
  lift_byteClass_legal hb (decide_eq_true (Nat.lt_succ_of_le hi)) _ _

theorem exec_term_busy {s : State} (hb : s.ph = .busy) (hi : s.idx.toNat ≤ 7) (p : Payload) :
    exec (.term p) s = .next (s.setRegs .done (pushLead s.acc p) (s.idx + 1)) :=
  lift_byteClass_legal hb (decide_eq_true (Nat.lt_succ_of_le hi)) _ _

theorem exec_last_busy {s : State} (hb : s.ph = .busy) (hi : s.idx.toNat = 8) (d : Byte) :
    exec (.last d) s = .next (s.setRegs .done (pushLast s.acc d) (s.idx + 1)) :=
  lift_byteClass_legal hb (decide_eq_true hi) _ _

/-- `CONT` and `TERM` complete in `BUSY` at index 0 to 7 only, and both push the payload (41 R103, R104). -/
theorem exec_lead_next {s t : State} {p : Payload} (hb : s.ph = .busy)
    (h : exec (.cont p) s = .next t ∨ exec (.term p) s = .next t) :
    s.idx.toNat ≤ 7 ∧ t.acc = pushLead s.acc p := by
  have written : ∀ {ph}, s.lift (Block.byteClass (decide (s.idx.toNat < Config.leadBytes)) ph (pushLead s.acc p)
      s.toBlock) = .next t → s.idx.toNat ≤ 7 ∧ t.acc = pushLead s.acc p := by
    intro ph hl
    rcases lift_byteClass_next hl with ⟨hn, -⟩ | ⟨-, hlt, rfl⟩
    · exact absurd hb hn
    · exact ⟨Nat.le_of_lt_succ (of_decide_eq_true hlt), rfl⟩
  rcases h with h | h
  · exact written h
  · exact written h

-- ==== The accumulator below the bound of a decode (10 R30) ====

/-- The bound after at most eight leading bytes is at most `2^56`. -/
theorem lead_bound_le {n : Nat} (hn : n ≤ 8) : 2 ^ (7 * n) ≤ 2 ^ 56 :=
  Nat.pow_le_pow_right (by decide) (by omega)

/-- Below the bound of a decode, a leading byte is pushed exactly and leaves the accumulator below `2^56`. -/
theorem pushLead_exact {acc : Acc} {n : Nat} (hn : n ≤ 7) (h : acc.toNat < 2 ^ (7 * n)) (p : Payload) :
    (pushLead acc p).toNat = acc.toNat * 2 ^ 7 + p.toNat ∧ (pushLead acc p).toNat < 2 ^ 56 :=
  ⟨pushLead_toNat (h.trans_le (lead_bound_le (Nat.le_succ_of_le hn))) p,
    (pushLead_lt hn h p).trans_le (lead_bound_le (Nat.succ_le_succ hn))⟩

/-- Below `2^56` the signed reading is not negative. -/
theorem s64_nonneg {acc : Acc} (h : acc.toNat < 2 ^ 56) : 0 ≤ s64 acc := by
  rw [s64_eq_toNat (by omega)]
  exact Int.natCast_nonneg _

-- ==== The three byte classes ====

/-- Equal phases show equal flags (10 R25). -/
theorem State.flags_congr {s t : State} (h : s.ph = t.ph) : s.doneFlag = t.doneFlag ∧ s.errFlag = t.errFlag := by
  simp [State.doneFlag, State.errFlag, h]

/-- Settles O15: `CONT` pushes its payload and stays in `BUSY`; the byte after index 7 is the ninth. -/
theorem continuationByteStep : Obligations.ContinuationByteStep := by
  unfold Obligations.ContinuationByteStep
  intro p s hb hi
  have hidx : (s.idx + 1).toNat = s.idx.toNat + 1 := idx_succ_toNat (by omega)
  obtain ⟨hdone, herr⟩ := State.flags_congr (s := s.setRegs .busy (pushLead s.acc p) (s.idx + 1)) hb.symm
  refine ⟨decodeByte_contByte hi p, _, exec_cont_busy hb hi p, by rw [← hb]; rfl, hidx, rfl, hdone, herr,
    fun hacc => (pushLead_exact hi hacc p).1, fun h7 b => ?_, ?_⟩
  · rw [State.setRegs_idx, hidx, h7]
    exact decodeByte_last b
  · rintro hacc hidx0 rfl
    rw [State.setRegs_acc, State.setRegs_idx, hacc, hidx0]
    decide

/-- Settles O16: `TERM` pushes its payload and ends the decode, with a value below `2^56`. -/
theorem terminatingByteStep : Obligations.TerminatingByteStep := by
  unfold Obligations.TerminatingByteStep
  intro p s hb hi
  have hresult : (s.setRegs .done (pushLead s.acc p) (s.idx + 1)).result =
      some (.ok (s64 (pushLead s.acc p)) (s.idx + 1).toNat) := State.result_done rfl
  refine ⟨decodeByte_termByte hi p, _, exec_term_busy hb hi p, rfl, idx_succ_toNat (by omega),
    by simp, by simp, hresult, fun hacc => ?_, fun hacc hidx => ?_, ?_⟩
  · obtain ⟨hexact, hlt⟩ := pushLead_exact hi hacc p
    exact ⟨hexact, hlt, s64_nonneg hlt⟩
  · have hval : (pushLead 0 p).toNat = p.toNat := pushLead_zero_toNat p
    rw [hresult, hacc, hidx, s64_eq_toNat (by omega), hval]
    rfl
  · rintro hacc hidx rfl
    rw [hresult, hacc, hidx]
    decide

/-- Settles O17: `LAST` pushes all eight bits and ends the decode at index 9; `CONT` and `TERM` stay below `2^56`. -/
theorem ninthByteStep : Obligations.NinthByteStep := by
  unfold Obligations.NinthByteStep
  refine ⟨fun d s hb h8 => ?_, fun p s t hb hacc h => ?_⟩
  · have hi : s.idx.toNat = 8 := congrArg BitVec.toNat h8
    have hidx : s.idx + 1 = 9 := by rw [h8]; rfl
    have hexec := exec_last_busy hb hi d
    rw [hidx] at hexec
    have hresult : (s.setRegs .done (pushLast s.acc d) 9).result = some (.ok (s64 (pushLast s.acc d)) 9) :=
      State.result_done rfl
    refine ⟨by rw [hi]; exact decodeByte_last d, _, hexec, rfl, by simp, by simp, hresult,
      fun hacc => pushLast_toNat hacc d, fun b => decodeByte_noFormat (idx := 9) (by decide) b, ?_⟩
    rintro hacc rfl
    have hfull : s.acc = 0x00FFFFFFFFFFFFFF := BitVec.eq_of_toNat_eq hacc
    rw [hresult, hfull]
    decide
  · obtain ⟨hi, hpush⟩ := exec_lead_next hb h
    rw [hpush]
    exact s64_nonneg (pushLead_exact hi hacc p).2

end Sys2Proof.Machine

/-! Proofs about the host interface (43): the event of a clock edge of profile S, the transition it selects, its
outputs, and the saturation of `avail` in profile W. -/

namespace Sys2Proof.Machine

-- ==== The event of an edge (43 R149) ====

theorem event_rst {p : Pins} (h : p.rst = true) (ph : Phase) : event p ph = .reset := if_pos h

/-- Settles O47: the event on each side of `BUSY`, read at the sampled inputs. -/
theorem serialEventPriority : Obligations.SerialEventPriority := by
  unfold Obligations.SerialEventPriority
  intro p ph
  refine ⟨fun hrst => event_rst hrst ph, fun hrst hph hstart => ?_, ?_, ?_, ?_, fun hrst hph hstart => ?_⟩
  · simp [event_not_busy hph, hrst, hstart]
  · rintro hrst rfl hvalid hend
    simp [event_busy, hrst, hvalid, hend]
  · rintro hrst rfl hvalid hend
    simp [event_busy, hrst, hvalid, hend]
  · rintro hrst rfl hvalid
    simp [event_busy, hrst, hvalid]
  · simp [event_not_busy hph, hrst, hstart]

/-- Outside `BUSY` the `in` inputs give no event. -/
theorem event_not_busy_cases (p : Pins) {ph : Phase} (h : ph ≠ .busy) :
    event p ph = .reset ∨ event p ph = .start ∨ event p ph = .nothing := by
  rw [event_not_busy h]
  cases p.rst <;> cases p.start <;> simp

/-- A byte is an event in `BUSY` only. -/
theorem busy_of_event_byte {p : Pins} {ph : Phase} {b : Byte} (h : event p ph = .byte b) : ph = .busy := by
  by_contra hb
  rcases event_not_busy_cases p hb with he | he | he <;> rw [he] at h <;> cases h

-- ==== The transition by the event (43 R150) ====

section
variable {p : Pins} {s : State}

theorem edge_of_event_reset (h : event p s.ph = .reset) : edge p s = .next s.resetRegs := by rw [edge, h]

theorem edge_of_event_start (h : event p s.ph = .start) : edge p s = .next (s.startDecode .stream) := by rw [edge, h]

theorem edge_of_event_nothing (h : event p s.ph = .nothing) : edge p s = .next s := by rw [edge, h]

/-- A byte that stands for an instruction at the index executes as that instruction. -/
theorem edge_of_event_byte {b : Byte} {i : Instr} (h : event p s.ph = .byte b)
    (hd : decodeByte s.idx.toNat b = .ok i) : edge p s = exec i s := by
  simp only [edge, h, classify, hd, afterFetch]

/-- `END` at an index the decode wants is `TruncatedInput`. -/
theorem edge_of_event_end (h : event p s.ph = .endOfBuffer) (hi : s.idx.toNat ≤ 8) :
    edge p s = .next s.raiseTruncated := by
  simp only [edge, h, endAt_noByte hi, afterFetch]

end

/-- Settles O48: the event selects the row, and a byte's row is the one of its class at the index. -/
theorem serialTransitionTable : Obligations.SerialTransitionTable := by
  unfold Obligations.SerialTransitionTable
  intro p s
  refine ⟨edge_of_event_reset, edge_of_event_start, fun b he => ?_, edge_of_event_end, edge_of_event_nothing⟩
  have hb : s.ph = .busy := busy_of_event_byte he
  refine ⟨fun hi h7 => ?_, fun hi h7 => ?_, fun h8 => ?_⟩
  · rw [edge_of_event_byte he (decodeByte_cont (Nat.lt_succ_of_le hi) h7), exec_cont_busy hb hi]
    rfl
  · rw [edge_of_event_byte he (decodeByte_term (Nat.lt_succ_of_le hi) h7), exec_term_busy hb hi]
    rfl
  · have hi : s.idx.toNat = 8 := congrArg BitVec.toNat h8
    have hd : decodeByte s.idx.toNat b = .ok (.last b) := by rw [hi, decodeByte_last]
    rw [edge_of_event_byte he hd, exec_last_busy hb hi, h8]
    rfl

-- ==== The outputs (43 R151) ====

@[simp] theorem State.inReady_eq_true (s : State) : s.inReady = true ↔ s.ph = .busy := by simp [State.inReady]

/-- The value port by the phase (10 R23). -/
theorem State.value_eq_ite (s : State) : s.value = if s.ph = .done then s.acc else 0 := by
  split
  · next h => exact State.value_done h
  · next h => exact State.value_not_done h

/-- The count port by the phase (10 R24). -/
theorem State.consumed_eq_ite (s : State) : s.consumed = if s.ph = .done then s.idx else 0 := by
  split
  · next h => exact State.consumed_done h
  · next h => exact State.consumed_not_done h

/-- The outputs are read off the three registers and nothing else. -/
theorem outputs_congr {s t : State} (h : s.toBlock = t.toBlock) : outputs s = outputs t := by
  simp [outputs, State.inReady, State.doneFlag, State.errFlag, State.value, State.consumed, h]

/-- The block is its three registers (10 R29). -/
theorem Block.eq_of_regs {b c : Block} (h : (b.ph, b.acc, b.idx) = (c.ph, c.acc, c.idx)) : b = c := by
  cases b
  cases c
  simpa using h

theorem outputs_resetRegs (s : State) :
    outputs s.resetRegs = { inReady := false, done := false, err := false, value := 0, consumed := 0 } := rfl

/-- Outside `BUSY` an edge that neither starts a decode nor resets changes nothing. -/
theorem edge_unchanged {p : Pins} {s : State} (hb : s.ph ≠ .busy) (hstart : event p s.ph ≠ .start)
    (hreset : event p s.ph ≠ .reset) : edge p s = .next s := by
  rcases event_not_busy_cases p hb with he | he | he
  · exact absurd he hreset
  · exact absurd he hstart
  · exact edge_of_event_nothing he

/-- Settles O49: each port is a function of the registers, which an edge outside `BUSY` leaves alone unless it starts a
decode or resets. -/
theorem serialOutputsFollowState : Obligations.SerialOutputsFollowState := by
  unfold Obligations.SerialOutputsFollowState
  refine ⟨fun s => ⟨s.inReady_eq_true, s.doneFlag_eq_true, s.errFlag_eq_true, s.value_eq_ite, s.consumed_eq_ite⟩,
    fun s t h => outputs_congr (Block.eq_of_regs h), fun s t p hb hstart hreset ht => ?_, fun s t p he ht => ?_⟩
  · rw [edge_unchanged hb hstart hreset] at ht
    cases ht
    rfl
  · rw [edge_of_event_reset he] at ht
    cases ht
    exact outputs_resetRegs s

-- ==== Profile W (43 R147) ====

/-- Every `avail` of 9 or more stands for the nine lanes. -/
theorem lanesAvailable_saturates {avail : BitVec 4} (h : 9 ≤ avail.toNat) : lanesAvailable avail = 9 :=
  Nat.min_eq_right h

/-- Profile W sees `avail` only as the number of lanes that carry bytes. -/
theorem profileW_congr_avail {avail avail' : BitVec 4} (h : lanesAvailable avail = lanesAvailable avail')
    (win : Window) : profileW win avail = profileW win avail' := by
  simp only [profileW, h]

/-- Settles O36: `avail` of 10 to 15 and 9 stand for the same lanes. -/
theorem windowCountSaturates : Obligations.WindowCountSaturates := by
  unfold Obligations.WindowCountSaturates
  intro win avail h
  have hlanes : lanesAvailable avail = lanesAvailable 9 := lanesAvailable_saturates (Nat.le_of_succ_le h)
  exact profileW_congr_avail hlanes win

end Sys2Proof.Machine

/-! Proofs about the one exception (60): when `TruncatedInput` is raised, by a byte step and by the operation DECODE. -/

namespace Sys2Proof.Machine

-- ==== A byte step that raises `TruncatedInput` (60 R161) ====

/-- A fetch finds no byte only where the index has reached `len`. -/
theorem len_le_of_fetchByte_noByte {buf : Buffer} {idx : Index} (h : fetchByte buf idx = .noByte) :
    buf.len ≤ idx.toNat := by
  by_cases hi : idx.toNat ≤ 8
  · rcases memRead_cases buf idx.toNat with ⟨hl, -⟩ | ⟨hl, b, hr, -⟩ | ⟨hl, -, hm⟩
    · exact hl
    · rw [fetchByte_byte hi hl hr] at h
      rcases classify_cases idx.toNat b with ⟨-, -, hc⟩ | ⟨-, -, hc⟩ | ⟨-, hc⟩ | ⟨-, hc⟩ <;> cases hc.symm.trans h
    · simp [fetchByte, Nat.lt_succ_of_le hi, hm] at h
  · rw [fetchByte_outOfRange (Nat.lt_of_not_le hi)] at h
    cases h

/-- No byte class ends a decode in `ERR`. -/
theorem exec_byteClass_ph_ne_err {s t : State} {i : Instr} (hb : s.ph = .busy) (hi : i.isByteClass = true)
    (h : exec i s = .next t) : t.ph ≠ .err := by
  rcases exec_byteClass_ph hb hi h with ⟨-, hph⟩ | ⟨-, hph⟩ <;> simp [hph]

/-- The block alone on its buffer enters `ERR` only where the index has reached `len`. -/
theorem len_le_of_step_err {s t : State} (ha : s.runsAlone = true) (h : step s = .next t) (ht : t.ph = .err) :
    s.len ≤ s.idx.toNat := by
  rw [step_alone ha, byteStep] at h
  cases hf : fetchByte s.toBuffer s.idx with
  | instr i =>
    rw [hf] at h
    exact absurd ht (exec_byteClass_ph_ne_err ((s.runsAlone_iff).1 ha).1 (fetchByte_isByteClass hf) h)
  | noByte => exact len_le_of_fetchByte_noByte hf
  | notSupplied => rw [hf] at h; cases h
  | outOfRange => rw [hf] at h; cases h

/-- While a decode runs on its buffer, its index is at most `len` and every byte below it has bit 7 set (10 R30). -/
theorem StateInv.cont_below_idx {s : State} (hs : StateInv s) (ha : s.runsAlone = true) :
    s.idx.toNat ≤ s.len ∧ ∀ i < s.idx.toNat, ContAt s.toBuffer i := by
  obtain ⟨hph, hsrc⟩ := (s.runsAlone_iff).1 ha
  obtain ⟨-, -, hbuf⟩ := hs
  have hbuf := hbuf hsrc
  rw [BufferInv, hph] at hbuf
  obtain ⟨hle, hcont, -⟩ := hbuf
  exact ⟨hle, hcont⟩

-- ==== A decode that ends in `TruncatedInput` (60 R161) ====

/-- From byte index `i`, the loop of DECODE fails exactly when the bytes left end before index 9 and all have bit 7
set. -/
theorem decodeLoop_error_iff {i : Nat} (hi : i ≤ 8) (acc : Acc) (buf : List Byte) :
    decodeLoop i acc buf = .error .truncatedInput ↔ i + buf.length ≤ 8 ∧ ∀ b ∈ buf, contBit b = true := by
  induction buf generalizing i acc with
  | nil => simp [hi]
  | cons b bs ih =>
    rcases Nat.lt_or_eq_of_le hi with hlt | rfl
    · cases hb : contBit b with
      | false => simp [decodeLoop_term hlt hb, hb]
      | true =>
        rw [decodeLoop_cont hlt hb, ih hlt, List.length_cons, List.forall_mem_cons, Nat.succ_add_eq_add_succ]
        simp [hb]
    · simp [decodeLoop_last]

/-- Settles O21: the bounds test alone leads to `ERR`, the invariant holds the index at or below `len`, and the loop of
DECODE from index 0 fails on continuation bytes only. -/
theorem truncatedExactlyWhenShort : Obligations.TruncatedExactlyWhenShort := by
  unfold Obligations.TruncatedExactlyWhenShort
  refine ⟨fun s t ha hi h => ⟨len_le_of_step_err ha h, fun hl => ?_⟩, fun s t hs ha h ht => ?_,
    fun s t i => exec_byteClass_ph_ne_err, fun buf => ?_⟩
  · rw [step_noByte ha hi hl] at h
    cases h
    rfl
  · obtain ⟨hle, hcont⟩ := hs.cont_below_idx ha
    have hidx : s.idx.toNat = s.len := le_antisymm hle (len_le_of_step_err ha h ht)
    exact ⟨hidx, hidx ▸ hcont⟩
  · rw [decodeOperation, decodeLoop_error_iff (Nat.zero_le 8), Nat.zero_add]

end Sys2Proof.Machine

/-! Proofs about reset (70): an edge with `rst` high, and the block waiting after it. -/

namespace Sys2Proof.Machine

/-- With `rst` high an edge is a reset, whatever the state and the other inputs were (70 R182). -/
theorem edge_rst {p : Pins} (h : p.rst = true) (s : State) : edge p s = .next s.resetRegs :=
  edge_of_event_reset (event_rst h s.ph)

/-- As a step of the machine, an edge with `rst` high also takes the move off the host's queue. -/
theorem step_edge_rst {s : State} {p : Pins} {rest : List HostMove} (hrst : p.rst = true) (ha : s.runsAlone = false)
    (hh : s.host = .edge p :: rest) : step s = .next (s.setHost rest).resetRegs := by
  rw [step_host ha hh]
  exact edge_rst hrst (s.setHost rest)

/-- Outside `BUSY` the block waits at every edge without `rst` and `start` (43 R149). -/
theorem edge_waits {q : Pins} {s : State} (h : s.ph ≠ .busy) (hrst : q.rst = false) (hstart : q.start = false) :
    edge q s = .next s := by
  rw [edge_not_busy h, hrst, hstart]
  rfl

/-- After a reset there is no result (70 R182). -/
theorem result_resetRegs (s : State) : s.resetRegs.result = none :=
  (State.status_result_of_not_ended (.inr s.resetRegs_ph)).2

/-- Settles O2: `rst` selects the reset before any other input is looked at, and the reset state is `IDLE`, which shows
no output and waits. -/
theorem resetEdgeAbandonsDecode : Obligations.ResetEdgeAbandonsDecode := by
  unfold Obligations.ResetEdgeAbandonsDecode
  intro s p rest hrst
  refine ⟨edge_rst hrst s, step_edge_rst hrst, fun t ht => ?_⟩
  rw [edge_rst hrst] at ht
  cases ht
  exact ⟨outputs_resetRegs s, result_resetRegs s, fun q => edge_waits (by simp)⟩

end Sys2Proof.Machine

/-! Proofs about the encoding, both ways (30 section 1): the round trips of the decoder and the encoder, that no form
begins another, and the words of the tables. -/

namespace Sys2Proof.Machine

-- ==== The round trips (30 section 1) ====

/-- A byte class's encoding is one byte, which decodes to it at each index where it is legal. -/
theorem decodeByte_encode {i : Instr} (hi : i.isByteClass = true) {idx : Nat} (hl : i.legalAt idx = true) :
    ∃ b, encode i = [b] ∧ decodeByte idx b = .ok i := by
  cases i
  case cont p => exact ⟨contByte p, rfl, decodeByte_contByte (of_decide_eq_true hl) p⟩
  case term p => exact ⟨termByte p, rfl, decodeByte_termByte (of_decide_eq_true hl) p⟩
  case last d =>
    obtain rfl : idx = 8 := of_decide_eq_true hl
    exact ⟨d, rfl, decodeByte_last d⟩
  all_goals cases hi

/-- Settles O9: a byte class at a legal index, and a length form with bytes after it, are read back. -/
theorem decodeOfEncode : Obligations.DecodeOfEncode := by
  unfold Obligations.DecodeOfEncode
  exact fun i => ⟨fun hi idx hl => decodeByte_encode hi hl, decodeVarint_encode⟩

/-- A byte that decodes to a byte class is its encoding. -/
theorem encode_of_decodeByte {idx : Nat} {b : Byte} {i : Instr} (h : decodeByte idx b = .ok i) : encode i = [b] := by
  rcases decodeByte_cases idx b with ⟨-, hb, hd⟩ | ⟨-, hb, hd⟩ | ⟨-, hd⟩ | ⟨-, hd⟩ <;> cases hd.symm.trans h
  · simp [encode, contByte_payload b hb]
  · simp [encode, termByte_payload b hb]
  · rfl

/-- Settles O10: what was read is the encoding of the answer, on both levels of the table. -/
theorem encodeOfDecode : Obligations.EncodeOfDecode := by
  unfold Obligations.EncodeOfDecode
  refine ⟨fun idx b i h => ?_, fun bs rest i h => ⟨encode_of_decodeVarint h, decodeVarint_isLengthForm h⟩⟩
  obtain ⟨hlegal, hclass⟩ := exec_classified h
  exact ⟨encode_of_decodeByte h, hclass, hlegal⟩

-- ==== No form begins another (30 section 1) ====

/-- A length form is the only one whose encoding begins its own. -/
theorem eq_of_encode_prefix {i j : Instr} (hi : i.isByteClass = false) (hj : j.isByteClass = false)
    (h : encode i <+: encode j) : i = j := by
  obtain ⟨tail, htail⟩ := h
  have hread : decodeVarint (encode j ++ []) = .ok (i, tail) := by
    rw [List.append_nil, ← htail, decodeVarint_encode hi]
  rw [decodeVarint_encode hj] at hread
  cases hread
  rfl

/-- Reading whole varints fails in one way only (30 R73). -/
theorem decodeVarint_error_eq {bs : List Byte} {r : Reject} (h : decodeVarint bs = .error r) : r = .truncated := by
  revert h
  fun_cases decodeVarint bs
  all_goals
    intro h
    cases h
  all_goals rfl

/-- What is read as a length form holds the form's bytes. -/
theorem size_le_of_decodeVarint {bs rest : List Byte} {i : Instr} (h : decodeVarint bs = .ok (i, rest)) :
    i.size ≤ bs.length := by
  obtain ⟨ps, d, henc, hsize, -, -⟩ := encode_lengthForm (decodeVarint_isLengthForm h)
  rw [← encode_of_decodeVarint h, henc, hsize]
  simp

/-- No form begins fewer than nine bytes exactly when all of them have bit 7 set (30 R73). -/
theorem decodeVarint_truncated_iff {bs : List Byte} (hlen : bs.length < 9) :
    decodeVarint bs = .error .truncated ↔ ∀ b ∈ bs, contBit b = true := by
  refine ⟨fun h => (cont_of_decodeVarint_error h).2, fun hall => ?_⟩
  cases hd : decodeVarint bs with
  | error r => rw [decodeVarint_error_eq hd]
  | ok a =>
    obtain ⟨t, -, hsize, -, -, hlast⟩ := decodeVarint_ok hd
    have ht : t < bs.length := by
      have := size_le_of_decodeVarint hd
      omega
    have hclear := hlast (by omega)
    rw [List.getD_eq_getElem _ _ ht, hall _ (List.getElem_mem ht)] at hclear
    cases hclear

/-- Settles O11: the decoder reads each encoding as its own form, and answers wherever a form can end. -/
theorem lengthFormsArePrefixCode : Obligations.LengthFormsArePrefixCode := by
  unfold Obligations.LengthFormsArePrefixCode
  exact ⟨fun i j => eq_of_encode_prefix, fun bs hlen => decodeVarint_answers (.inl hlen),
    fun bs => decodeVarint_truncated_iff⟩

/-- Settles O14, by reading each word. -/
theorem tableWordsDecode : Obligations.TableWordsDecode := by
  unfold Obligations.TableWordsDecode
  decide

end Sys2Proof.Machine

/-! Proofs about the accumulator (40 section 2, 42 section 3): the bits of a pushed payload, and the number the payloads
make, as joined bits and as a sum. -/

namespace Sys2Proof.Machine

-- ==== Where a pushed bit lands (42 section 3) ====

/-- The shift leaves zeros where the new bits go: the addition is a bitwise or. -/
theorem shift_add_eq_or {k : Nat} (acc : Acc) (p : BitVec k) :
    (acc <<< k) + p.setWidth 64 = (acc <<< k) ||| p.setWidth 64 := by
  refine BitVec.add_eq_or_of_and_eq_zero _ _ (BitVec.eq_of_getLsbD_eq fun n hn => ?_)
  by_cases h : n < k
  · simp [h]
  · simp [BitVec.getLsbD_of_ge p n (Nat.le_of_not_lt h)]

/-- The new bits are lowest, the old ones as many places higher. -/
theorem shift_add_getLsbD {k : Nat} (acc : Acc) (p : BitVec k) {n : Nat} (hn : n < 64) :
    ((acc <<< k) + p.setWidth 64).getLsbD n = if n < k then p.getLsbD n else acc.getLsbD (n - k) := by
  rw [shift_add_eq_or]
  split
  · next h => simp [h, hn]
  · next h => simp [-BitVec.getLsbD_eq_getElem, h, hn, BitVec.getLsbD_of_ge p n (Nat.le_of_not_lt h)]

theorem pushLead_eq_or (acc : Acc) (p : Payload) : pushLead acc p = (acc <<< 7) ||| p.setWidth 64 :=
  shift_add_eq_or acc p

theorem pushLast_eq_or (acc : Acc) (d : Byte) : pushLast acc d = (acc <<< 8) ||| d.setWidth 64 :=
  shift_add_eq_or acc d

/-- The bits of the accumulator after a leading byte. -/
theorem pushLead_getLsbD (acc : Acc) (p : Payload) {n : Nat} (hn : n < 64) :
    (pushLead acc p).getLsbD n = if n < 7 then p.getLsbD n else acc.getLsbD (n - 7) :=
  shift_add_getLsbD acc p hn

/-- The bits of the accumulator after the ninth byte. -/
theorem pushLast_getLsbD (acc : Acc) (d : Byte) {n : Nat} (hn : n < 64) :
    (pushLast acc d).getLsbD n = if n < 8 then d.getLsbD n else acc.getLsbD (n - 8) :=
  shift_add_getLsbD acc d hn

/-- Settles O24: below the bounds a push is exact, and the pushed bits meet zeros. -/
theorem accumulationNeverOverflows : Obligations.AccumulationNeverOverflows := by
  unfold Obligations.AccumulationNeverOverflows
  exact ⟨fun acc p i hi h => ⟨(pushLead_exact hi h p).1, pushLead_lt hi h p, pushLead_eq_or acc p⟩,
    fun acc d h => ⟨pushLast_toNat h d, pushLast_eq_or acc d⟩⟩

/-- Bit `j` of payload `i` lands above the payloads that come after it (42 section 3). -/
theorem assembleLead_getLsbD {ps : List Payload} (hlen : ps.length ≤ 8) {i j : Nat} (hi : i < ps.length) (hj : j < 7) :
    (assembleLead ps).getLsbD (7 * (ps.length - 1 - i) + j) = (ps.getD i 0).getLsbD j := by
  induction ps using List.reverseRecOn with
  | nil => cases hi
  | append_singleton ps p ih =>
    rw [List.length_append, List.length_singleton] at hi hlen ⊢
    rw [assembleLead_append, pushLead_getLsbD _ _ (by omega)]
    rcases Nat.lt_or_eq_of_le (Nat.le_of_lt_succ hi) with hlt | rfl
    · rw [if_neg (by omega), List.getD_append _ _ _ _ hlt, ← ih (by omega) hlt]
      congr 1
      omega
    · simp [hj]

/-- Above the payloads there are zeros. -/
theorem assembleLead_getLsbD_high {ps : List Payload} (hlen : ps.length ≤ 8) {n : Nat} (hn : 7 * ps.length ≤ n) :
    (assembleLead ps).getLsbD n = false :=
  Nat.testBit_eq_false_of_lt ((assembleLead_lt ps hlen).trans_le (Nat.pow_le_pow_right (by decide) hn))

/-- In nine bytes the leading payloads lie above the ninth byte. -/
theorem pushLast_getLsbD_lead {ps : List Payload} (hlen : ps.length = 8) (d : Byte) {i j : Nat} (hi : i < 8)
    (hj : j < 7) : (pushLast (assembleLead ps) d).getLsbD (7 * (7 - i) + 8 + j) = (ps.getD i 0).getLsbD j := by
  rw [pushLast_getLsbD _ _ (by omega), if_neg (by omega), ← assembleLead_getLsbD hlen.le (hlen.symm ▸ hi) hj, hlen]
  congr 1
  omega

/-- Settles O26: each later byte moves the bits of the earlier ones up by its own width. -/
theorem payloadBitMap : Obligations.PayloadBitMap := by
  unfold Obligations.PayloadBitMap
  refine ⟨fun ps i j hlen => assembleLead_getLsbD hlen, fun ps n hlen => assembleLead_getLsbD_high hlen,
    fun ps d i j hlen => pushLast_getLsbD_lead hlen d, fun ps d j _ hj => ?_⟩
  rw [pushLast_getLsbD _ _ (by omega), if_pos hj]

-- ==== Joined payloads (30 section 2) ====

/-- Pushing bits onto a zero-extended number joins them to it. -/
theorem shift_add_join {k n : Nat} (w : BitVec n) (p : BitVec k) :
    (w.setWidth 64 <<< k) + p.setWidth 64 = (w ++ p).setWidth 64 := by
  refine BitVec.eq_of_getLsbD_eq fun m hm => ?_
  rw [shift_add_getLsbD _ _ hm]
  simp [BitVec.getLsbD_append, hm, show m - k < 64 by omega]

theorem pushLead_setWidth {n : Nat} (w : BitVec n) (p : Payload) :
    pushLead (w.setWidth 64) p = (w ++ p).setWidth 64 := shift_add_join w p

theorem pushLast_setWidth {n : Nat} (w : BitVec n) (d : Byte) :
    pushLast (w.setWidth 64) d = (w ++ d).setWidth 64 := shift_add_join w d

theorem assembleLead_singleton (p : Payload) : assembleLead [p] = p.setWidth 64 :=
  BitVec.eq_of_toNat_eq (by rw [assembleLead, List.foldl, List.foldl, pushLead_zero_toNat]; simp; omega)

/-- One more payload joined to those assembled. -/
theorem assembleLead_join {ps : List Payload} {n : Nat} {w : BitVec n} (h : assembleLead ps = w.setWidth 64)
    (p : Payload) : assembleLead (ps ++ [p]) = (w ++ p).setWidth 64 := by
  rw [assembleLead_append, h, pushLead_setWidth]

-- ==== The number as a sum (30 section 2) ====

/-- The payloads assembled are a sum in which each later byte counts for `2^7` less. -/
theorem assembleLead_toNat_eq_sum {ps : List Payload} (hlen : ps.length ≤ 8) :
    (assembleLead ps).toNat =
      ∑ j ∈ Finset.range ps.length, (ps.getD j 0).toNat * 2 ^ (7 * (ps.length - 1 - j)) := by
  induction ps using List.reverseRecOn with
  | nil => rfl
  | append_singleton ps p ih =>
    rw [List.length_append, List.length_singleton] at hlen ⊢
    have hlt : (assembleLead ps).toNat < 2 ^ 56 :=
      (assembleLead_lt ps (Nat.le_of_succ_le hlen)).trans_le (lead_bound_le (Nat.le_of_succ_le hlen))
    rw [assembleLead_append, pushLead_toNat hlt, ih (Nat.le_of_succ_le hlen), Finset.sum_range_succ, Finset.sum_mul]
    congr 1
    · refine Finset.sum_congr rfl fun j hj => ?_
      have hj : j < ps.length := Finset.mem_range.1 hj
      rw [List.getD_append _ _ _ _ hj, Nat.mul_assoc,
        show 7 * (ps.length + 1 - 1 - j) = 7 * (ps.length - 1 - j) + 7 by omega, Nat.pow_add]
    · simp

/-- In nine bytes the sum of the leading payloads counts for `2^8` more, and the ninth byte is added. -/
theorem pushLast_toNat_eq_sum {ps : List Payload} (hlen : ps.length = 8) (d : Byte) :
    (pushLast (assembleLead ps) d).toNat =
      (∑ j ∈ Finset.range 8, (ps.getD j 0).toNat * 2 ^ (7 * (7 - j) + 8)) + d.toNat := by
  have hlt := assembleLead_lt ps hlen.le
  rw [hlen] at hlt
  rw [pushLast_toNat hlt, assembleLead_toNat_eq_sum hlen.le, hlen, Finset.sum_mul]
  exact congrArg (· + d.toNat) (Finset.sum_congr rfl fun j _ => by rw [Nat.mul_assoc, Nat.pow_add])

/-- A length form ends the decode with its accumulator and count, from every state. -/
theorem finishDecode_eq {acc acc' : Acc} (h : acc = acc') (k : Index) (s : State) :
    finishDecode acc k s = .next { s with ph := .done, idx := k, acc := acc' } := by
  rw [h]
  rfl

/-- Settles O25: the payloads are joined one by one, and the sum is that of the pushes. -/
theorem lengthFormsJoinPayloads : Obligations.LengthFormsJoinPayloads := by
  unfold Obligations.LengthFormsJoinPayloads
  refine ⟨fun a b c d e f g h i s => ?_, fun ps => assembleLead_toNat_eq_sum,
    fun ps d hlen => pushLast_toNat_eq_sum hlen d⟩
  have h1 := assembleLead_singleton a
  have h2 := assembleLead_join h1 b
  have h3 := assembleLead_join h2 c
  have h4 := assembleLead_join h3 d
  have h5 := assembleLead_join h4 e
  have h6 := assembleLead_join h5 f
  have h7 := assembleLead_join h6 g
  have h8 := assembleLead_join h7 h
  have h9 : pushLast (assembleLead [a, b, c, d, e, f, g, h]) i = a ++ b ++ c ++ d ++ e ++ f ++ g ++ h ++ i :=
    (congrArg (pushLast · i) h8).trans ((pushLast_setWidth _ i).trans (BitVec.setWidth_eq _))
  exact ⟨finishDecode_eq h1 1 s, finishDecode_eq h2 2 s, finishDecode_eq h3 3 s, finishDecode_eq h4 4 s,
    finishDecode_eq h5 5 s, finishDecode_eq h6 6 s, finishDecode_eq h7 7 s, finishDecode_eq h8 8 s,
    finishDecode_eq h9 9 s⟩

end Sys2Proof.Machine

/-! Proofs about the operation DECODE by the bytes of its buffer (40 sections 2 and 3): what it reads, what it answers
on a part of the buffer, and the range of the value. -/

namespace Sys2Proof.Machine

-- ==== What DECODE answers, by the bytes that end the varint (40 R80) ====

/-- The loop of DECODE passes leading bytes with bit 7 set, pushing their payloads. -/
theorem decodeLoop_append {pre : List Byte} (hpre : ∀ b ∈ pre, contBit b = true) {i : Nat} (hi : i + pre.length ≤ 8)
    (acc : Acc) (tl : List Byte) :
    decodeLoop i acc (pre ++ tl) = decodeLoop (i + pre.length) ((pre.map payload).foldl pushLead acc) tl := by
  induction pre generalizing i acc with
  | nil => rfl
  | cons b bs ih =>
    obtain ⟨hb, hbs⟩ := List.forall_mem_cons.1 hpre
    rw [List.length_cons] at hi ⊢
    rw [List.cons_append, decodeLoop_cont (by omega) hb, ih hbs (by omega), Nat.succ_add_eq_add_succ]
    rfl

/-- Up to seven bytes with bit 7 set and one with bit 7 clear: the payloads of them all. -/
theorem decodeOperation_short {pre : List Byte} (hpre : ∀ c ∈ pre, contBit c = true) (hlen : pre.length ≤ 7) {b : Byte}
    (hb : contBit b = false) (rest : List Byte) :
    decodeOperation (pre ++ b :: rest) =
      .ok (s64 (assembleLead (pre.map payload ++ [payload b]))) (pre.length + 1) := by
  rw [decodeOperation, decodeLoop_append hpre (by omega), Nat.zero_add, decodeLoop_term (by omega) hb,
    assembleLead_append]
  rfl

/-- Eight bytes with bit 7 set and a ninth: their payloads and the ninth byte whole. -/
theorem decodeOperation_long {pre : List Byte} (hpre : ∀ c ∈ pre, contBit c = true) (hlen : pre.length = 8) (b : Byte)
    (rest : List Byte) :
    decodeOperation (pre ++ b :: rest) = .ok (s64 (pushLast (assembleLead (pre.map payload)) b)) 9 := by
  rw [decodeOperation, decodeLoop_append hpre (by omega), Nat.zero_add, hlen, decodeLoop_last]
  rfl

/-- A buffer that decodes well begins with a varint of one of the two kinds. -/
theorem decodeOperation_ok {buf : List Byte} {v : Int} {k : Nat} (h : decodeOperation buf = .ok v k) :
    ∃ pre b rest, buf = pre ++ b :: rest ∧ k = pre.length + 1 ∧ (∀ c ∈ pre, contBit c = true) ∧
      ((pre.length ≤ 7 ∧ contBit b = false ∧ v = s64 (assembleLead (pre.map payload ++ [payload b]))) ∨
        (pre.length = 8 ∧ v = s64 (pushLast (assembleLead (pre.map payload)) b))) := by
  obtain ⟨t, ht, -, ht8, hset, hclear⟩ := decodeLoop_ok (Nat.zero_le 8) h
  rw [Nat.zero_add] at ht8 hclear
  have hlen : (buf.take t).length = t := List.length_take_of_le ht.le
  have hbuf : buf = buf.take t ++ buf.getD t 0 :: buf.drop (t + 1) := by
    rw [List.getD_eq_getElem _ _ ht, ← List.drop_eq_getElem_cons ht, List.take_append_drop]
  have hpre : ∀ c ∈ buf.take t, contBit c = true := by
    intro c hc
    obtain ⟨j, hj, rfl⟩ := List.getElem_of_mem hc
    have hjt : j < t := hlen ▸ hj
    rw [List.getElem_take, ← List.getD_eq_getElem _ 0 (hjt.trans ht)]
    exact hset j hjt
  rcases Nat.lt_or_eq_of_le ht8 with hlt | rfl
  · have hb := hclear (Nat.le_of_lt_succ hlt)
    have hd := decodeOperation_short hpre (by omega) hb (buf.drop (t + 1))
    rw [← hbuf, h] at hd
    cases hd
    exact ⟨_, _, _, hbuf, rfl, hpre, .inl ⟨by omega, hb, rfl⟩⟩
  · have hd := decodeOperation_long hpre hlen (buf.getD 8 0) (buf.drop 9)
    rw [← hbuf, h] at hd
    cases hd
    exact ⟨_, _, _, hbuf, by rw [hlen], hpre, .inr ⟨hlen, rfl⟩⟩

-- ==== Parts of the buffer (40 section 3) ====

/-- The loop of DECODE reads no byte from index 9 on. -/
theorem decodeLoop_take {i : Nat} (hi : i ≤ 8) (acc : Acc) (buf : List Byte) :
    decodeLoop i acc (buf.take (9 - i)) = decodeLoop i acc buf := by
  induction buf generalizing i acc with
  | nil => rw [List.take_nil]
  | cons b bs ih =>
    rw [show 9 - i = 9 - (i + 1) + 1 by omega, List.take_succ_cons]
    rcases Nat.lt_or_eq_of_le hi with hlt | rfl
    · cases hb : contBit b
      · rw [decodeLoop_term hlt hb, decodeLoop_term hlt hb]
      · rw [decodeLoop_cont hlt hb, decodeLoop_cont hlt hb, ih hlt]
    · rw [decodeLoop_last, decodeLoop_last]

/-- The count is at most 9 and at most the length of the buffer. -/
theorem count_le {buf : List Byte} {v : Int} {k : Nat} (h : decodeOperation buf = .ok v k) :
    k ≤ buf.length ∧ k ≤ 9 := by
  obtain ⟨t, ht, rfl, ht8, -⟩ := decodeLoop_ok (Nat.zero_le 8) h
  omega

/-- Settles O29, by where the loop ends and what it reads. -/
theorem boundedConsumption : Obligations.BoundedConsumption := by
  unfold Obligations.BoundedConsumption
  exact ⟨fun buf v k h => le_min (count_le h).1 (count_le h).2, decodeLoop_take (Nat.zero_le 8) 0⟩

/-- DECODE fails on at most eight bytes, all with bit 7 set, and on no other buffer (60 R161). -/
theorem decodeOperation_error_iff (buf : List Byte) :
    decodeOperation buf = .error .truncatedInput ↔ buf.length ≤ 8 ∧ ∀ b ∈ buf, contBit b = true := by
  rw [decodeOperation, decodeLoop_error_iff (Nat.zero_le 8), Nat.zero_add]

/-- Settles O30: the bytes before the one that ends the varint are at most eight, all with bit 7 set. -/
theorem shorterBufferIsTruncated : Obligations.ShorterBufferIsTruncated := by
  unfold Obligations.ShorterBufferIsTruncated
  intro buf v k j h hj
  have hk9 := (count_le h).2
  obtain ⟨pre, b, rest, rfl, rfl, hpre, -⟩ := decodeOperation_ok h
  rw [List.take_append_of_le_length (Nat.le_of_lt_succ hj), decodeOperation_error_iff, List.length_take]
  exact ⟨by omega, fun c hc => hpre c (List.mem_of_mem_take hc)⟩

-- ==== The range of the value (40 section 2) ====

/-- Up to eight payloads give the number they assemble to, below `2^(7k)`. -/
theorem s64_assembleLead {ps : List Payload} (hlen : ps.length ≤ 8) :
    s64 (assembleLead ps) = (assembleLead ps).toNat ∧ (assembleLead ps).toNat < 2 ^ (7 * ps.length) := by
  have hlt := assembleLead_lt ps hlen
  exact ⟨s64_eq_toNat (hlt.trans_le ((lead_bound_le hlen).trans (by decide))), hlt⟩

/-- The signed reading is that of a 64-bit word. -/
theorem s64_range (acc : Acc) : -2 ^ 63 ≤ s64 acc ∧ s64 acc < 2 ^ 63 := ⟨BitVec.le_toInt acc, BitVec.toInt_lt⟩

/-- The sign is bit 63 (30 R69). -/
theorem s64_neg_iff (acc : Acc) : s64 acc < 0 ↔ acc.getLsbD 63 = true := by
  rw [← BitVec.msb_eq_getLsbD_last, BitVec.msb_eq_toInt, decide_eq_true_eq, s64]

/-- With nine bytes, the value is negative exactly when bit 6 of byte 0 is set. -/
theorem neg_iff_of_nine {pre : List Byte} (hlen : pre.length = 8) (b : Byte) (rest : List Byte) :
    s64 (pushLast (assembleLead (pre.map payload)) b) < 0 ↔ ((pre ++ b :: rest).getD 0 0).getLsbD 6 = true := by
  have hbit := pushLast_getLsbD_lead ((List.length_map payload).trans hlen) b (i := 0) (j := 6) (by decide) (by decide)
  cases pre with
  | nil => cases hlen
  | cons a as => rw [s64_neg_iff, hbit]; simp [payload]

/-- The value's range for each count (40 section 2). -/
theorem value_range {buf : List Byte} {v : Int} {k : Nat} (h : decodeOperation buf = .ok v k) :
    (k ≤ 8 → 0 ≤ v ∧ v < 2 ^ (7 * k)) ∧
      (k = 9 → -2 ^ 63 ≤ v ∧ v < 2 ^ 63 ∧ (v < 0 ↔ (buf.getD 0 0).getLsbD 6 = true)) := by
  obtain ⟨pre, b, rest, rfl, rfl, -, ⟨h7, -, rfl⟩ | ⟨h8, rfl⟩⟩ := decodeOperation_ok h
  · refine ⟨fun hk => ?_, by omega⟩
    obtain ⟨hval, hlt⟩ := s64_assembleLead (ps := pre.map payload ++ [payload b]) (by simpa using hk)
    rw [List.length_append, List.length_map, List.length_singleton] at hlt
    rw [hval]
    exact ⟨Int.natCast_nonneg _, by exact_mod_cast hlt⟩
  · obtain ⟨hmin, hmax⟩ := s64_range (pushLast (assembleLead (pre.map payload)) b)
    exact ⟨by omega, fun _ => ⟨hmin, hmax, neg_iff_of_nine h8 b rest⟩⟩

/-- Both ends of the range occur with each count of 1 to 8. -/
theorem range_ends_occur : ∀ k < 9, 1 ≤ k →
    decodeOperation (List.replicate (k - 1) 0x80 ++ [0x00]) = .ok 0 k ∧
    decodeOperation (List.replicate (k - 1) 0xFF ++ [0x7F]) = .ok (2 ^ (7 * k) - 1) k := by
  decide

/-- Settles O33: the range by the kind of the varint, and buffers that reach the ends. -/
theorem valueRangeByLength : Obligations.ValueRangeByLength := by
  unfold Obligations.ValueRangeByLength
  exact ⟨fun buf v k => value_range, fun k h1 h8 => range_ends_occur k (Nat.lt_succ_of_le h8) h1, by decide, by decide⟩

end Sys2Proof.Machine

/-! Proofs about the canonical encoder (42 section 4) and the listings (30 section 4): the encodings of a value by
their length, which of them is canonical, and the assembler and disassembler. -/

namespace Sys2Proof.Machine

-- ==== The payloads of a number (42 R127) ====

/-- The `n` payloads that hold bits `sh` to `sh + 7n - 1` of `u`, the most significant first. -/
def digits (u : Acc) (sh : Nat) : Nat → List Payload
  | 0 => []
  | n + 1 => digits u (sh + 7) n ++ [u.extractLsb' sh 7]

@[simp] theorem digits_length (u : Acc) (sh n : Nat) : (digits u sh n).length = n := by
  induction n generalizing sh with
  | zero => rfl
  | succ n ih => simp [digits, ih]

theorem digits_eq_map (u : Acc) (sh n : Nat) :
    digits u sh n = (List.range n).map fun i => u.extractLsb' (7 * (n - 1 - i) + sh) 7 := by
  induction n generalizing sh with
  | zero => rfl
  | succ n ih =>
    rw [digits, ih, List.range_succ, List.map_append, List.map_singleton]
    congr 1
    · refine List.map_congr_left fun i hi => ?_
      have hi : i < n := List.mem_range.1 hi
      rw [show 7 * (n - 1 - i) + (sh + 7) = 7 * (n + 1 - 1 - i) + sh by omega]
    · simp

/-- Up to eight payloads of a number assemble to the bits they hold. -/
theorem assembleLead_digits (u : Acc) {n : Nat} (hn : n ≤ 8) (sh : Nat) :
    (assembleLead (digits u sh n)).toNat = u.toNat / 2 ^ sh % 2 ^ (7 * n) := by
  induction n generalizing sh with
  | zero => simp [digits, Nat.mod_one]
  | succ n ih =>
    have ih := ih (Nat.le_of_succ_le hn) (sh + 7)
    have hlt : (assembleLead (digits u (sh + 7) n)).toNat < 2 ^ 56 := by
      rw [ih]
      exact (Nat.mod_lt _ (by positivity)).trans_le (lead_bound_le (Nat.le_of_succ_le hn))
    rw [digits, assembleLead_append, pushLead_toNat hlt, ih, BitVec.extractLsb'_toNat, Nat.shiftRight_eq_div_pow,
      Nat.pow_add, ← Nat.div_div_eq_div_mul, show 7 * (n + 1) = 7 + 7 * n by omega, Nat.pow_add 2 7, Nat.mod_mul]
    omega

/-- A number below `2^(7n)` is what its `n` payloads assemble to. -/
theorem assembleLead_digits_eq {u : Acc} {n : Nat} (hn : n ≤ 8) (h : u.toNat < 2 ^ (7 * n)) :
    assembleLead (digits u 0 n) = u :=
  BitVec.eq_of_toNat_eq (by rw [assembleLead_digits u hn, Nat.pow_zero, Nat.div_one, Nat.mod_eq_of_lt h])

/-- Eight payloads and a byte hold a number whole. -/
theorem pushLast_digits_eq (u : Acc) : pushLast (assembleLead (digits u 8 8)) (u.extractLsb' 0 8) = u := by
  have hlead := assembleLead_digits u (n := 8) le_rfl 8
  refine BitVec.eq_of_toNat_eq ?_
  rw [pushLast_toNat (by omega), hlead, BitVec.extractLsb'_toNat, Nat.shiftRight_zero]
  omega

-- ==== The encoding of each length (42 R127) ====

/-- The encoding of the pattern `u` in `k` bytes. -/
def encodeIn (u : Acc) (k : Nat) : List Byte := if k < Config.maxBytes then encodeShort u k else encodeLong u

theorem encodeValue_eq (v : Int) :
    encodeValue v = encodeIn (BitVec.ofInt 64 v) (canonicalLength (BitVec.ofInt 64 v)) := rfl

/-- In fewer than nine bytes all payloads but the last stand in continuation bytes. -/
theorem encodeIn_short (u : Acc) {n : Nat} (hn : n ≤ 7) :
    encodeIn u (n + 1) = (digits u 7 n).map contByte ++ [termByte (u.extractLsb' 0 7)] := by
  rw [encodeIn, if_pos (Nat.succ_lt_succ (Nat.lt_succ_of_le hn)), encodeShort, digits_eq_map, List.map_map]
  congr 1
  refine List.map_congr_left fun i hi => ?_
  have hi : i < n := List.mem_range.1 hi
  rw [Function.comp_apply, show 7 * (n + 1 - 1 - i) = 7 * (n - 1 - i) + 7 by omega]

/-- In nine bytes the low byte stands by itself. -/
theorem encodeIn_nine (u : Acc) : encodeIn u 9 = (digits u 8 8).map contByte ++ [u.extractLsb' 0 8] := by
  rw [encodeIn, if_neg (Nat.lt_irrefl 9), encodeLong, digits_eq_map, List.map_map]
  rfl

theorem encodeIn_length (u : Acc) {k : Nat} (h1 : 1 ≤ k) (h9 : k ≤ 9) : (encodeIn u k).length = k := by
  rcases Nat.lt_or_eq_of_le h9 with hlt | rfl
  · obtain ⟨n, rfl⟩ := Nat.exists_eq_add_of_le' h1
    rw [encodeIn_short u (by omega)]
    simp
  · rw [encodeIn_nine]
    simp

theorem contBit_of_mem_map {ps : List Payload} : ∀ c ∈ ps.map contByte, contBit c = true := by
  simp

@[simp] theorem map_payload_contByte (ps : List Payload) : (ps.map contByte).map payload = ps := by
  simp [List.map_map, Function.comp_def]

/-- A number below `2^(7k)`, in fewer than nine bytes, is read back. -/
theorem decodeOperation_encodeIn_short {u : Acc} {n : Nat} (hn : n ≤ 7) (h : u.toNat < 2 ^ (7 * (n + 1)))
    (tail : List Byte) : decodeOperation (encodeIn u (n + 1) ++ tail) = .ok (s64 u) (n + 1) := by
  have hlen : ((digits u 7 n).map contByte).length = n := by simp
  have hwhole : digits u 7 n ++ [u.extractLsb' 0 7] = digits u 0 (n + 1) := rfl
  rw [encodeIn_short u hn, List.append_assoc, List.singleton_append,
    decodeOperation_short contBit_of_mem_map (hlen.trans_le hn) (contBit_termByte _), hlen, map_payload_contByte,
    payload_termByte, hwhole, assembleLead_digits_eq (Nat.succ_le_succ hn) h]

/-- Every pattern in nine bytes is read back. -/
theorem decodeOperation_encodeIn_nine (u : Acc) (tail : List Byte) :
    decodeOperation (encodeIn u 9 ++ tail) = .ok (s64 u) 9 := by
  rw [encodeIn_nine, List.append_assoc, List.singleton_append, decodeOperation_long contBit_of_mem_map (by simp),
    map_payload_contByte, pushLast_digits_eq]

-- ==== The canonical length (42 R129) ====

/-- The canonical length is in 1 to 9, and of the lengths below 9 it is the least whose payloads hold the number. -/
theorem canonicalLength_spec (u : Acc) :
    1 ≤ canonicalLength u ∧ canonicalLength u ≤ 9 ∧
      ∀ k, 1 ≤ k → k ≤ 8 → (canonicalLength u ≤ k ↔ u.toNat < 2 ^ (7 * k)) := by
  unfold canonicalLength
  cases h : (List.range' 1 8).find? (fun k => decide (u.toNat < 2 ^ (7 * k))) with
  | some c =>
    rw [List.find?_range'_eq_some] at h
    obtain ⟨hc, hmem, hleast⟩ := h
    have hc : u.toNat < 2 ^ (7 * c) := of_decide_eq_true hc
    rw [List.mem_range'_1] at hmem
    dsimp only
    refine ⟨hmem.1, by omega, fun k h1 h8 => ⟨fun hk => ?_, fun hk => ?_⟩⟩
    · exact hc.trans_le (Nat.pow_le_pow_right (by decide) (Nat.mul_le_mul_left 7 hk))
    · by_contra hlt
      simpa [hk] using hleast k h1 (Nat.lt_of_not_le hlt)
  | none =>
    rw [List.find?_range'_eq_none] at h
    refine ⟨by decide, le_rfl, fun k h1 h8 => ⟨fun hk => ?_, fun hk => ?_⟩⟩
    · exact absurd (Nat.le_trans hk h8) (by decide)
    · simpa [hk] using h k h1 (by omega)

theorem one_le_canonicalLength (u : Acc) : 1 ≤ canonicalLength u := (canonicalLength_spec u).1

theorem canonicalLength_le_nine (u : Acc) : canonicalLength u ≤ 9 := (canonicalLength_spec u).2.1

theorem canonicalLength_le_iff (u : Acc) {k : Nat} (h1 : 1 ≤ k) (h8 : k ≤ 8) :
    canonicalLength u ≤ k ↔ u.toNat < 2 ^ (7 * k) := (canonicalLength_spec u).2.2 k h1 h8

/-- In every length from the canonical one to 9 a number is read back. -/
theorem decodeOperation_encodeIn {u : Acc} {k : Nat} (hk : canonicalLength u ≤ k) (h9 : k ≤ 9) (tail : List Byte) :
    decodeOperation (encodeIn u k ++ tail) = .ok (s64 u) k := by
  have h1 := (one_le_canonicalLength u).trans hk
  rcases Nat.lt_or_eq_of_le h9 with hlt | rfl
  · have hu := (canonicalLength_le_iff u h1 (Nat.le_of_lt_succ hlt)).1 hk
    obtain ⟨n, rfl⟩ := Nat.exists_eq_add_of_le' h1
    exact decodeOperation_encodeIn_short (by omega) hu tail
  · exact decodeOperation_encodeIn_nine u tail

/-- A signed 64-bit integer is the reading of its own pattern. -/
theorem s64_ofInt {v : Int} (hmin : -2 ^ 63 ≤ v) (hmax : v < 2 ^ 63) : s64 (BitVec.ofInt 64 v) = v :=
  BitVec.toInt_ofInt_eq_self (by decide) hmin hmax

theorem encodeValue_length (v : Int) : (encodeValue v).length = canonicalLength (BitVec.ofInt 64 v) :=
  encodeIn_length _ (one_le_canonicalLength _) (canonicalLength_le_nine _)

/-- The canonical encoding is read back, whatever follows it. -/
theorem decodeOperation_encodeValue {v : Int} (hmin : -2 ^ 63 ≤ v) (hmax : v < 2 ^ 63) (tail : List Byte) :
    decodeOperation (encodeValue v ++ tail) = .ok v (encodeValue v).length := by
  rw [encodeValue_length, encodeValue_eq, decodeOperation_encodeIn le_rfl (canonicalLength_le_nine _),
    s64_ofInt hmin hmax]

/-- Settles O38: the canonical length is one in which the number is read back. -/
theorem canonicalEncodingRoundTrips : Obligations.CanonicalEncodingRoundTrips := by
  unfold Obligations.CanonicalEncodingRoundTrips
  exact fun v tail hmin hmax => decodeOperation_encodeValue hmin hmax tail

-- ==== One encoding of each length (42 R129) ====

/-- As many payloads that assemble to the same number are the same payloads. -/
theorem assembleLead_inj {ps qs : List Payload} (hlen : ps.length = qs.length) (h8 : ps.length ≤ 8)
    (h : assembleLead ps = assembleLead qs) : ps = qs := by
  refine List.ext_getElem hlen fun i hi hi' => BitVec.eq_of_getLsbD_eq fun j hj => ?_
  rw [← List.getD_eq_getElem ps 0 hi, ← List.getD_eq_getElem qs 0 hi', ← assembleLead_getLsbD h8 hi hj,
    ← assembleLead_getLsbD (hlen ▸ h8) hi' hj, h, hlen]

/-- The leading payloads and the ninth byte are read off the number they make. -/
theorem pushLast_inj {ps qs : List Payload} {d e : Byte} (hps : ps.length = 8) (hqs : qs.length = 8)
    (h : pushLast (assembleLead ps) d = pushLast (assembleLead qs) e) : ps = qs ∧ d = e := by
  have hp := assembleLead_lt ps hps.le
  have hq := assembleLead_lt qs hqs.le
  rw [hps] at hp
  rw [hqs] at hq
  have hnat := congrArg BitVec.toNat h
  rw [pushLast_toNat hp, pushLast_toNat hq] at hnat
  have hde : d = e := BitVec.eq_of_toNat_eq (by omega)
  exact ⟨assembleLead_inj (hps.trans hqs.symm) hps.le (BitVec.eq_of_toNat_eq (by omega)), hde⟩

/-- Bytes with bit 7 set are told by their payloads. -/
theorem eq_of_map_payload_eq {as bs : List Byte} (ha : ∀ c ∈ as, contBit c = true) (hb : ∀ c ∈ bs, contBit c = true)
    (h : as.map payload = bs.map payload) : as = bs := by
  have restored : ∀ {cs : List Byte}, (∀ c ∈ cs, contBit c = true) → (cs.map payload).map contByte = cs := by
    intro cs hcs
    rw [List.map_map]
    exact (List.map_congr_left fun c hc => contByte_payload c (hcs c hc)).trans (List.map_id cs)
  rw [← restored ha, ← restored hb, h]

/-- Two buffers that decode to the same value with the same count hold the same varint. -/
theorem take_eq_of_decodeOperation_eq {buf buf' : List Byte} {v : Int} {k : Nat} (h : decodeOperation buf = .ok v k)
    (h' : decodeOperation buf' = .ok v k) : buf.take k = buf'.take k := by
  obtain ⟨pre, b, rest, rfl, rfl, hpre, hend⟩ := decodeOperation_ok h
  obtain ⟨pre', b', rest', rfl, hk, hpre', hend'⟩ := decodeOperation_ok h'
  have hlen : pre.length = pre'.length := Nat.succ_injective hk
  suffices heq : pre = pre' ∧ b = b' by
    obtain ⟨rfl, rfl⟩ := heq
    simp [List.take_append]
  rcases hend with ⟨h7, hb, hv⟩ | ⟨h8, hv⟩ <;> rcases hend' with ⟨h7', hb', hv'⟩ | ⟨h8', hv'⟩
  · have hall := assembleLead_inj (by simp [hlen]) (by simp; omega) (BitVec.toInt_inj.1 (hv.symm.trans hv'))
    obtain ⟨hlead, hlast⟩ := List.append_inj' hall rfl
    refine ⟨eq_of_map_payload_eq hpre hpre' hlead, ?_⟩
    rw [← termByte_payload b hb, ← termByte_payload b' hb', List.singleton_injective hlast]
  · omega
  · omega
  · obtain ⟨hlead, hlast⟩ := pushLast_inj (by simpa using h8) (by simpa using h8')
      (BitVec.toInt_inj.1 (hv.symm.trans hv'))
    exact ⟨eq_of_map_payload_eq hpre hpre' hlead, hlast⟩

/-- What decodes to the reading of `u` has at least the canonical length of `u`. -/
theorem canonicalLength_le_of_decodeOperation {buf : List Byte} {u : Acc} {k : Nat}
    (h : decodeOperation buf = .ok (s64 u) k) : canonicalLength u ≤ k := by
  obtain ⟨pre, b, rest, -, rfl, -, ⟨h7, -, hv⟩ | ⟨h8, -⟩⟩ := decodeOperation_ok h
  · have hlt := assembleLead_lt (pre.map payload ++ [payload b]) (by simpa using Nat.lt_succ_of_le h7)
    rw [← BitVec.toInt_inj.1 hv] at hlt
    exact (canonicalLength_le_iff u (Nat.le_add_left 1 _) (Nat.succ_le_succ h7)).2 (by simpa using hlt)
  · rw [h8]
    exact canonicalLength_le_nine u

/-- What DECODE answers is the reading of a pattern. -/
theorem value_eq_s64 {buf : List Byte} {v : Int} {k : Nat} (h : decodeOperation buf = .ok v k) :
    v = s64 (BitVec.ofInt 64 v) := by
  obtain ⟨-, -, -, -, -, -, ⟨-, -, rfl⟩ | ⟨-, rfl⟩⟩ := decodeOperation_ok h
  · exact (congrArg s64 BitVec.ofInt_toInt).symm
  · exact (congrArg s64 BitVec.ofInt_toInt).symm

/-- Settles O39: the value bounds the count from below, and varints of one value and count are the same bytes. -/
theorem canonicalEncodingIsShortest : Obligations.CanonicalEncodingIsShortest := by
  unfold Obligations.CanonicalEncodingIsShortest
  intro buf v k h
  have hv := value_eq_s64 h
  have hcanon : decodeOperation (encodeValue v) = .ok v (encodeValue v).length := by
    rw [hv]
    obtain ⟨hmin, hmax⟩ := s64_range (BitVec.ofInt 64 v)
    simpa using decodeOperation_encodeValue hmin hmax []
  refine ⟨?_, fun hk => ?_, fun htake => ?_⟩
  · rw [encodeValue_length]
    rw [hv] at h
    exact canonicalLength_le_of_decodeOperation h
  · rw [← hk] at hcanon
    rw [take_eq_of_decodeOperation_eq h hcanon, hk, List.take_length]
  · rw [← htake, List.length_take_of_le (count_le h).1]

/-- From 0 up the reading of a pattern is its number, and a negative one has bit 63 set. -/
theorem s64_sign_cases (u : Acc) : (0 ≤ s64 u ∧ s64 u = u.toNat) ∨ (s64 u < 0 ∧ 2 ^ 63 ≤ u.toNat) := by
  have hlt := u.isLt
  rcases Nat.lt_or_ge u.toNat (2 ^ 63) with h | h
  · rw [s64_eq_toNat h]
    exact .inl ⟨Int.natCast_nonneg _, rfl⟩
  · refine .inr ⟨?_, h⟩
    rw [s64, BitVec.toInt_eq_toNat_cond]
    omega

/-- Below 9, a canonical length is at most `k` exactly when the value is in 0 to `2^(7k) - 1`. -/
theorem canonicalLength_le_iff_s64 (u : Acc) {k : Nat} (h1 : 1 ≤ k) (h8 : k ≤ 8) :
    canonicalLength u ≤ k ↔ 0 ≤ s64 u ∧ s64 u < 2 ^ (7 * k) := by
  rw [canonicalLength_le_iff u h1 h8]
  rcases s64_sign_cases u with ⟨hnonneg, hval⟩ | ⟨hneg, hlarge⟩
  · rw [hval]
    exact ⟨fun h => ⟨Int.natCast_nonneg _, by exact_mod_cast h⟩, fun h => by exact_mod_cast h.2⟩
  · have hbound := lead_bound_le h8
    exact ⟨fun h => by omega, fun h => by omega⟩

/-- The canonical length by the range of the value (42 R129). -/
theorem encodeValue_length_of_range {v : Int} (hmin : -2 ^ 63 ≤ v) (hmax : v < 2 ^ 63) :
    (v < 0 ∨ 2 ^ 56 ≤ v → (encodeValue v).length = 9) ∧
    (0 ≤ v → v < 2 ^ 7 → (encodeValue v).length = 1) ∧
    ∀ c : Nat, 2 ≤ c → c ≤ 8 → 2 ^ (7 * (c - 1)) ≤ v → v < 2 ^ (7 * c) → (encodeValue v).length = c := by
  rw [encodeValue_length]
  have hone := one_le_canonicalLength (BitVec.ofInt 64 v)
  have hnine := canonicalLength_le_nine (BitVec.ofInt 64 v)
  have hle : ∀ k, 1 ≤ k → k ≤ 8 → (canonicalLength (BitVec.ofInt 64 v) ≤ k ↔ 0 ≤ v ∧ v < 2 ^ (7 * k)) := by
    intro k h1 h8
    rw [canonicalLength_le_iff_s64 _ h1 h8, s64_ofInt hmin hmax]
  refine ⟨fun h => ?_, fun h0 h => ?_, fun c h2 h8 hlow hhigh => ?_⟩
  · have := hle 8 (by decide) le_rfl
    omega
  · have := (hle 1 le_rfl (by decide)).2 ⟨h0, h⟩
    omega
  · have h0 : (0 : Int) ≤ v := le_trans (by positivity) hlow
    have hc := (hle c (by omega) h8).2 ⟨h0, hhigh⟩
    have hpred : ¬ canonicalLength (BitVec.ofInt 64 v) ≤ c - 1 := fun h =>
      absurd ((hle (c - 1) (by omega) (by omega)).1 h).2 (not_lt.2 hlow)
    omega

/-- Settles O40: the encoding in each length from the canonical one, and no other buffer of that length. -/
theorem oneEncodingPerLength : Obligations.OneEncodingPerLength := by
  unfold Obligations.OneEncodingPerLength
  refine ⟨fun v hmin hmax => encodeValue_length_of_range hmin hmax, fun v k hmin hmax hk h9 => ?_⟩
  rw [encodeValue_length] at hk
  have hlen := encodeIn_length (BitVec.ofInt 64 v) ((one_le_canonicalLength _).trans hk) h9
  have hread : decodeOperation (encodeIn (BitVec.ofInt 64 v) k) = .ok v k := by
    simpa [s64_ofInt hmin hmax] using decodeOperation_encodeIn hk h9 []
  refine ⟨_, ⟨hlen, hread⟩, fun buf ⟨hbuf, hdec⟩ => ?_⟩
  have htake := take_eq_of_decodeOperation_eq hdec hread
  rwa [List.take_of_length_le hbuf.le, List.take_of_length_le hlen.le] at htake

-- ==== Listings (30 section 4) ====

/-- A well-formed listing begins with a `CONT` line before a well-formed rest, or is one line that ends the varint. -/
theorem listingWellFormedFrom_cons {idx : Nat} {i : Instr} {l : List Instr}
    (h : listingWellFormedFrom idx (i :: l) = true) :
    (∃ p, i = .cont p ∧ idx ≤ 7 ∧ listingWellFormedFrom (idx + 1) l = true) ∨
    (i.isByteClass = true ∧ i.legalAt idx = true ∧ l = [] ∧ ∀ p, i ≠ .cont p) := by
  cases i
  case cont p =>
    obtain ⟨hl, hrest⟩ := (Bool.and_eq_true _ _).mp h
    exact .inl ⟨p, rfl, of_decide_eq_true hl, hrest⟩
  all_goals
    simp only [listingWellFormedFrom, Bool.and_eq_true, List.isEmpty_iff] at h
    exact .inr ⟨h.1.1, h.1.2, h.2, by simp⟩

/-- A byte that ends the varint disassembles to its one line. -/
theorem disassembleFrom_end {idx : Nat} {b : Byte} {i : Instr} (hd : decodeByte idx b = .ok i)
    (hi : ∀ p, i ≠ .cont p) (bs : List Byte) : disassembleFrom idx (b :: bs) = .ok [i] := by
  cases i
  case cont p => exact absurd rfl (hi p)
  all_goals simp only [disassembleFrom, hd]

/-- A continuation byte disassembles to its line and the lines of the rest. -/
theorem disassembleFrom_cont {idx : Nat} {b : Byte} {p : Payload} (hd : decodeByte idx b = .ok (.cont p))
    (bs : List Byte) :
    disassembleFrom idx (b :: bs) = (disassembleFrom (idx + 1) bs).map (Instr.cont p :: ·) := by
  simp only [disassembleFrom, hd]
  cases disassembleFrom (idx + 1) bs <;> rfl

/-- A well-formed listing is what its bytes disassemble to, whatever follows them. -/
theorem disassembleFrom_assemble {l : List Instr} {idx : Nat} (h : listingWellFormedFrom idx l = true)
    (tail : List Byte) : disassembleFrom idx (assemble l ++ tail) = .ok l := by
  induction l generalizing idx with
  | nil => cases h
  | cons i l ih =>
    rcases listingWellFormedFrom_cons h with ⟨p, rfl, hidx, hrest⟩ | ⟨hi, hl, rfl, hend⟩
    · have hbytes : assemble (.cont p :: l) ++ tail = contByte p :: (assemble l ++ tail) := rfl
      rw [hbytes, disassembleFrom_cont (decodeByte_contByte hidx p), ih hrest]
      rfl
    · obtain ⟨b, hb, hd⟩ := decodeByte_encode hi hl
      have hbytes : assemble [i] ++ tail = b :: tail := by simp [assemble, hb]
      rw [hbytes, disassembleFrom_end hd hend]

/-- Each line of a well-formed listing is one byte. -/
theorem assemble_length {l : List Instr} {idx : Nat} (h : listingWellFormedFrom idx l = true) :
    (assemble l).length = l.length := by
  induction l generalizing idx with
  | nil => rfl
  | cons i l ih =>
    rcases listingWellFormedFrom_cons h with ⟨p, rfl, -, hrest⟩ | ⟨hi, hl, rfl, -⟩
    · exact congrArg (· + 1) (ih hrest)
    · obtain ⟨b, hb, -⟩ := decodeByte_encode hi hl
      simp [assemble, hb]

/-- One line that ends the varint, legal at its index, is a well-formed listing. -/
theorem listingWellFormedFrom_singleton {idx : Nat} {i : Instr} (hi : i.isByteClass = true)
    (hl : i.legalAt idx = true) (hend : ∀ p, i ≠ .cont p) : listingWellFormedFrom idx [i] = true := by
  cases i
  case cont p => exact absurd rfl (hend p)
  all_goals simp [listingWellFormedFrom, hi, hl]

/-- What is disassembled is well formed and assembles to the first of the bytes read. -/
theorem listing_of_disassembleFrom {bs : List Byte} {idx : Nat} {l : List Instr}
    (h : disassembleFrom idx bs = .ok l) : listingWellFormedFrom idx l = true ∧ assemble l <+: bs := by
  induction bs generalizing idx l with
  | nil => cases h
  | cons b bs ih =>
    cases hd : decodeByte idx b with
    | error r => simp [disassembleFrom, hd] at h
    | ok i =>
      obtain ⟨hl, hi⟩ := exec_classified hd
      have hb := encode_of_decodeByte hd
      by_cases hc : ∃ p, i = .cont p
      · obtain ⟨p, rfl⟩ := hc
        rw [disassembleFrom_cont hd] at h
        cases hrest : disassembleFrom (idx + 1) bs with
        | error r => rw [hrest] at h; cases h
        | ok l' =>
          rw [hrest] at h
          cases h
          obtain ⟨hwf, hpre⟩ := ih hrest
          have hbytes : assemble (.cont p :: l') = b :: assemble l' := by simp [assemble, hb]
          exact ⟨(Bool.and_eq_true _ _).mpr ⟨hl, hwf⟩, hbytes ▸ (List.prefix_cons_inj b).2 hpre⟩
      · have hend : ∀ p, i ≠ .cont p := fun p hp => hc ⟨p, hp⟩
        rw [disassembleFrom_end hd hend] at h
        cases h
        have hbytes : assemble [i] = [b] := by simp [assemble, hb]
        exact ⟨listingWellFormedFrom_singleton hi hl hend, hbytes ▸ ⟨bs, rfl⟩⟩

/-- `CONT` lines before a well-formed listing. -/
theorem listingWellFormedFrom_append {ps : List Payload} {idx : Nat} {l : List Instr} (hidx : idx + ps.length ≤ 8)
    (h : listingWellFormedFrom (idx + ps.length) l = true) :
    listingWellFormedFrom idx (ps.map .cont ++ l) = true := by
  induction ps generalizing idx with
  | nil => exact h
  | cons p ps ih =>
    rw [List.length_cons] at hidx h
    refine (Bool.and_eq_true _ _).mpr ⟨decide_eq_true (by omega), ih (by omega) ?_⟩
    rwa [Nat.succ_add_eq_add_succ]

/-- The bytes of every encoding of 1 to 9 bytes are those of a well-formed listing. -/
theorem exists_listing_of_encodeIn (u : Acc) {k : Nat} (h1 : 1 ≤ k) (h9 : k ≤ 9) :
    ∃ l, listingWellFormed l = true ∧ assemble l = encodeIn u k := by
  have conts : ∀ (ps : List Payload) (i : Instr), assemble (ps.map .cont ++ [i]) = ps.map contByte ++ encode i := by
    intro ps i
    simp [assemble, List.flatMap_map, encode, ← List.map_eq_flatMap]
  rcases Nat.lt_or_eq_of_le h9 with hlt | rfl
  · obtain ⟨n, rfl⟩ := Nat.exists_eq_add_of_le' h1
    refine ⟨(digits u 7 n).map .cont ++ [.term (u.extractLsb' 0 7)], ?_, ?_⟩
    · refine listingWellFormedFrom_append (by simp; omega) (listingWellFormedFrom_singleton rfl ?_ (by simp))
      exact decide_eq_true (by simp; omega)
    · rw [conts, encodeIn_short u (by omega)]
      rfl
  · refine ⟨(digits u 8 8).map .cont ++ [.last (u.extractLsb' 0 8)], ?_, ?_⟩
    · exact listingWellFormedFrom_append (by simp) (listingWellFormedFrom_singleton rfl rfl (by simp))
    · rw [conts, encodeIn_nine]
      rfl

/-- `VARINT v` stands for the listing of the canonical encoding (30 R76). -/
theorem varintListing_spec {v : Int} (hmin : -2 ^ 63 ≤ v) (hmax : v < 2 ^ 63) :
    ∃ l, varintListing v = .ok l ∧ listingWellFormed l = true ∧ assemble l = encodeValue v ∧
      decodeOperation (assemble l) = .ok v l.length := by
  obtain ⟨l, hwf, hl⟩ := exists_listing_of_encodeIn (BitVec.ofInt 64 v) (one_le_canonicalLength _)
    (canonicalLength_le_nine _)
  rw [← encodeValue_eq] at hl
  have hread : disassembleFrom 0 (assemble l ++ []) = .ok l := disassembleFrom_assemble hwf []
  have hdec : decodeOperation (encodeValue v ++ []) = .ok v (encodeValue v).length :=
    decodeOperation_encodeValue hmin hmax []
  rw [List.append_nil] at hread hdec
  refine ⟨l, ?_, hwf, hl, ?_⟩
  · rw [varintListing, ← hl, hread]
  · rw [← assemble_length hwf, hl, hdec]

/-- Settles O13: the two directions line by line, and the listing of the canonical encoding. -/
theorem listingRoundTrip : Obligations.ListingRoundTrip := by
  unfold Obligations.ListingRoundTrip
  exact ⟨fun l tail h => disassembleFrom_assemble h tail, fun bs l => listing_of_disassembleFrom,
    fun v => varintListing_spec⟩

end Sys2Proof.Machine

/-! Proofs about the closed form (42 sections 2 and 3) and profile W (43 section 2): the barrel shift as assembled
payloads, the lanes the outcome depends on, and the agreement with DECODE. -/

namespace Sys2Proof.Machine

-- ==== The lanes as bytes (42 R120) ====

/-- The first `n` lanes as bytes of a buffer. -/
def lanes (win : Window) (n : Nat) : List Byte := (List.range n).map (lane win)

@[simp] theorem lanes_length (win : Window) (n : Nat) : (lanes win n).length = n := by simp [lanes]

theorem lanes_congr {win win' : Window} {n : Nat} (h : ∀ i < n, lane win i = lane win' i) :
    lanes win n = lanes win' n :=
  List.map_congr_left fun i hi => h i (List.mem_range.1 hi)

theorem forall_mem_lanes {win : Window} {n : Nat} (h : ∀ i < n, contBit (lane win i) = true) :
    ∀ b ∈ lanes win n, contBit b = true := by
  intro b hb
  obtain ⟨i, hi, rfl⟩ := List.mem_map.1 hb
  exact h i (List.mem_range.1 hi)

/-- The first lanes, and the others after them. -/
theorem lanes_eq_append (win : Window) {k n : Nat} (h : k ≤ n) :
    lanes win n = lanes win k ++ (lanes win n).drop k := by
  have htake : (lanes win n).take k = lanes win k := by
    rw [lanes, ← List.map_take, List.take_range, Nat.min_eq_left h, lanes]
  rw [← htake, List.take_append_drop]

/-- The lanes before one of them, that lane, and the lanes after it. -/
theorem lanes_eq_append_cons (win : Window) {t n : Nat} (h : t < n) :
    lanes win n = lanes win t ++ lane win t :: (lanes win n).drop (t + 1) := by
  have hlane : (lanes win n)[t]'(by simpa using h) = lane win t := by simp [lanes]
  rw [← hlane, ← List.drop_eq_getElem_cons, ← lanes_eq_append win h.le]

/-- A window that carries a buffer has the buffer's first nine bytes on its lanes. -/
theorem lanes_of_carries {buf : List Byte} {win : Window} (h : ∀ i < min buf.length 9, buf[i]? = some (lane win i)) :
    lanes win (min buf.length 9) = buf.take 9 := by
  refine List.ext_getElem (by simp [Nat.min_comm]) fun i hi hi' => ?_
  have hlt : i < min buf.length 9 := by simpa using hi
  rw [List.getElem_take]
  have hb := h i hlt
  rw [List.getElem?_eq_getElem (by omega)] at hb
  simpa [lanes] using (Option.some.inj hb).symm

-- ==== The barrel shift (42 R123) ====

/-- Shifting the last payloads out of the accumulator leaves those before them. -/
theorem assembleLead_shift {ps qs : List Payload} (h : (ps ++ qs).length ≤ 8) :
    assembleLead (ps ++ qs) >>> (7 * qs.length) = assembleLead ps := by
  induction qs using List.reverseRecOn with
  | nil => simp
  | append_singleton qs q ih =>
    rw [← List.append_assoc, List.length_append, List.length_singleton] at h
    have hlt : (assembleLead (ps ++ qs)).toNat < 2 ^ 56 :=
      (assembleLead_lt _ (Nat.le_of_succ_le h)).trans_le (lead_bound_le (Nat.le_of_succ_le h))
    have hone : pushLead (assembleLead (ps ++ qs)) q >>> 7 = assembleLead (ps ++ qs) := by
      refine BitVec.eq_of_toNat_eq ?_
      rw [BitVec.toNat_ushiftRight, pushLead_toNat hlt, Nat.shiftRight_eq_div_pow]
      omega
    rw [← List.append_assoc, assembleLead_append, List.length_append, List.length_singleton,
      show 7 * (qs.length + 1) = 7 + 7 * qs.length by omega, BitVec.shiftRight_add, hone, ih (Nat.le_of_succ_le h)]

/-- The joined payloads of all eight leading lanes. -/
theorem leadWord_setWidth (win : Window) : (leadWord win).setWidth 64 = assembleLead ((lanes win 8).map payload) := by
  have h1 := assembleLead_singleton (payload (lane win 0))
  exact (assembleLead_join (assembleLead_join (assembleLead_join (assembleLead_join (assembleLead_join
    (assembleLead_join (assembleLead_join h1 _) _) _) _) _) _) _).symm

/-- Up to length 8 the barrel shift gives the payloads of the first `k` lanes. -/
theorem barrel_short (win : Window) {k : Nat} (h8 : k ≤ 8) :
    barrel win k = assembleLead ((lanes win k).map payload) := by
  have hshift : barrel win k = (leadWord win).setWidth 64 >>> (7 * (8 - k)) := by
    rw [barrel, if_neg (Nat.ne_of_lt (Nat.lt_succ_of_le h8))]
    exact BitVec.eq_of_toNat_eq (by simp)
  have hsplit : (lanes win 8).map payload = (lanes win k).map payload ++ ((lanes win 8).drop k).map payload := by
    rw [← List.map_append, ← lanes_eq_append win h8]
  have hlen : (((lanes win 8).drop k).map payload).length = 8 - k := by simp
  rw [hshift, leadWord_setWidth, hsplit, ← hlen, assembleLead_shift]
  rw [← hsplit]
  simp

/-- At length 9 the closed form joins the ninth lane to the payloads. -/
theorem barrel_nine (win : Window) :
    barrel win 9 = pushLast (assembleLead ((lanes win 8).map payload)) (lane win 8) := by
  rw [← leadWord_setWidth, pushLast_setWidth]
  exact (BitVec.setWidth_eq _).symm

/-- The value of a length depends on the lanes below it only. -/
theorem barrel_congr {win win' : Window} {k : Nat} (h9 : k ≤ 9) (h : ∀ i < k, lane win i = lane win' i) :
    barrel win k = barrel win' k := by
  rcases Nat.lt_or_eq_of_le h9 with hlt | rfl
  · rw [barrel_short win (Nat.le_of_lt_succ hlt), barrel_short win' (Nat.le_of_lt_succ hlt), lanes_congr h]
  · rw [barrel_nine, barrel_nine, lanes_congr fun i hi => h i (hi.trans (by decide)), h 8 (by decide)]

-- ==== What the closed form answers (42 section 2) ====

/-- The first leading lane with bit 7 clear ends the varint. -/
theorem lengthSelect_of_term {win : Window} {n t : Nat} (hn : t < n) (h8 : t < 8)
    (hclear : contBit (lane win t) = false) (hset : ∀ j < t, contBit (lane win j) = true) :
    lengthSelect win n = some (t + 1) := by
  have hfind : (List.range (min n Config.leadBytes)).find? (fun i => !contBit (lane win i)) = some t :=
    List.find?_range_eq_some.2 ⟨by simp [hclear], List.mem_range.2 (lt_min hn h8), fun j hj => by simp [hset j hj]⟩
  rw [lengthSelect, hfind]

/-- With bit 7 set in all eight leading lanes the ninth ends the varint. -/
theorem lengthSelect_of_nine {win : Window} (hset : ∀ j < 8, contBit (lane win j) = true) :
    lengthSelect win 9 = some 9 := by
  have hfind : (List.range (min 9 Config.leadBytes)).find? (fun i => !contBit (lane win i)) = none :=
    List.find?_range_eq_none.2 fun j hj => by simp [hset j hj]
  rw [lengthSelect, hfind, if_pos rfl]

/-- The length select answers at most the number of lanes, and sees only the lanes below its answer. -/
theorem lengthSelect_congr {win win' : Window} {n k : Nat} (hn : n ≤ 9) (hk : lengthSelect win n = some k)
    (h : ∀ i < k, lane win i = lane win' i) : k ≤ n ∧ lengthSelect win' n = some k := by
  rcases lengthSelect_cases win hn with ⟨t, htn, ht8, hclear, hset, he⟩ | ⟨rfl, hset, he⟩ | ⟨-, -, he⟩ <;>
    cases he.symm.trans hk
  · rw [h t t.lt_succ_self] at hclear
    exact ⟨htn, lengthSelect_of_term htn ht8 hclear fun j hj => h j (Nat.lt_succ_of_lt hj) ▸ hset j hj⟩
  · exact ⟨le_rfl, lengthSelect_of_nine fun j hj => h j (Nat.lt_succ_of_lt hj) ▸ hset j hj⟩

/-- The outcome of the closed form depends on the lanes below its count only. -/
theorem closedForm_congr_of_some {win win' : Window} {n k : Nat} {acc : Acc} (hn : n ≤ 9)
    (hk : closedForm win n = some (acc, k)) (h : ∀ i < k, lane win i = lane win' i) :
    closedForm win' n = some (acc, k) := by
  obtain ⟨j, hj, hbarrel⟩ := Option.map_eq_some_iff.1 hk
  cases hbarrel
  obtain ⟨hle, hj'⟩ := lengthSelect_congr hn hj h
  rw [closedForm, hj', Option.map_some, barrel_congr (hle.trans hn) h]

theorem count_le_of_closedForm {win : Window} {n k : Nat} {acc : Acc} (hn : n ≤ 9)
    (hk : closedForm win n = some (acc, k)) : k ≤ n := by
  obtain ⟨j, hj, hbarrel⟩ := Option.map_eq_some_iff.1 hk
  cases hbarrel
  exact (lengthSelect_congr hn hj fun _ _ => rfl).1

/-- The outcome of the closed form depends on the lanes present only. -/
theorem closedForm_congr {win win' : Window} {n : Nat} (hn : n ≤ 9) (h : ∀ i < n, lane win i = lane win' i) :
    closedForm win n = closedForm win' n := by
  refine Option.ext fun ⟨acc, k⟩ => ⟨fun hk => ?_, fun hk => ?_⟩
  · exact closedForm_congr_of_some hn hk fun i hi => h i (hi.trans_le (count_le_of_closedForm hn hk))
  · exact closedForm_congr_of_some hn hk fun i hi => (h i (hi.trans_le (count_le_of_closedForm hn hk))).symm

theorem lanesAvailable_le_nine (avail : BitVec 4) : lanesAvailable avail ≤ 9 := Nat.min_le_right _ _

/-- Profile W where the closed form answers a value. -/
theorem profileW_of_some {win : Window} {avail : BitVec 4} {acc : Acc} {k : Nat}
    (h : closedForm win (lanesAvailable avail) = some (acc, k)) :
    profileW win avail = { value := acc, consumed := BitVec.ofNat 4 k, err := false } := by
  rw [profileW, h]

/-- Profile W where the closed form finds the varint truncated. -/
theorem profileW_of_none {win : Window} {avail : BitVec 4} (h : closedForm win (lanesAvailable avail) = none) :
    profileW win avail = { value := 0, consumed := 0, err := true } := by
  rw [profileW, h]

/-- Settles O37: the closed form sees the lanes that carry the varint. -/
theorem absentLanesHaveNoInfluence : Obligations.AbsentLanesHaveNoInfluence := by
  unfold Obligations.AbsentLanesHaveNoInfluence
  refine ⟨fun win win' avail h => ?_, fun win win' avail acc k hk h => ?_⟩
  · rw [profileW, profileW, closedForm_congr (lanesAvailable_le_nine avail) h]
  · exact profileW_of_some (closedForm_congr_of_some (lanesAvailable_le_nine avail) hk h)

-- ==== Agreement with DECODE (42 sections 2 and 3) ====

/-- The closed form's outcome as a result (00 R8). -/
def closedResult : Option (Acc × Nat) → Result
  | some (acc, k) => .ok (s64 acc) k
  | none => .error .truncatedInput

/-- On the bytes of the lanes, DECODE answers what the closed form does. -/
theorem decodeOperation_lanes (win : Window) {n : Nat} (hn : n ≤ 9) :
    decodeOperation (lanes win n) = closedResult (closedForm win n) := by
  rcases lengthSelect_cases win hn with ⟨t, htn, ht8, hclear, hset, he⟩ | ⟨rfl, hset, he⟩ | ⟨h8, hset, he⟩
  · have hlanes : (lanes win (t + 1)).map payload = (lanes win t).map payload ++ [payload (lane win t)] := by
      simp [lanes, List.range_succ]
    rw [closedForm, he, Option.map_some, closedResult, barrel_short win ht8, hlanes, lanes_eq_append_cons win htn,
      decodeOperation_short (forall_mem_lanes hset) (by simpa using Nat.le_of_lt_succ ht8) hclear, lanes_length]
  · rw [closedForm, he, Option.map_some, closedResult, barrel_nine, lanes_eq_append_cons win (t := 8) (by decide),
      decodeOperation_long (forall_mem_lanes hset) (lanes_length win 8)]
  · rw [closedForm, he, Option.map_none, closedResult, decodeOperation_error_iff, lanes_length]
    exact ⟨h8, forall_mem_lanes hset⟩

/-- A window that carries a buffer gives the outcome of DECODE on it. -/
theorem decodeOperation_of_carries {buf : List Byte} {win : Window}
    (h : ∀ i < min buf.length 9, buf[i]? = some (lane win i)) :
    decodeOperation buf = closedResult (closedForm win (min buf.length 9)) := by
  have htake : decodeOperation (buf.take 9) = decodeOperation buf := decodeLoop_take (Nat.zero_le 8) 0 buf
  rw [← htake, ← lanes_of_carries h, decodeOperation_lanes win (Nat.min_le_right _ _)]

/-- Settles O34: both see the buffer's first nine bytes. -/
theorem closedFormAgreesWithDecode : Obligations.ClosedFormAgreesWithDecode := by
  unfold Obligations.ClosedFormAgreesWithDecode
  intro buf win h
  rw [decodeOperation_of_carries h]
  cases closedForm win (min buf.length 9) <;> rfl

/-- Settles O35: the ports show the closed form's outcome, whose count fits the four wires. -/
theorem windowProfileComputesDecode : Obligations.WindowProfileComputesDecode := by
  unfold Obligations.WindowProfileComputesDecode
  intro buf win avail h havail
  have hlanes : lanesAvailable avail = min buf.length 9 := by
    rw [lanesAvailable, havail]
    exact Nat.min_eq_left (Nat.min_le_right _ _)
  rw [decodeOperation_of_carries h, ← hlanes]
  cases hc : closedForm win (lanesAvailable avail) with
  | none => exact profileW_of_none hc
  | some o =>
    obtain ⟨acc, k⟩ := o
    have hk : k ≤ 9 := (count_le_of_closedForm (lanesAvailable_le_nine avail) hc).trans (lanesAvailable_le_nine avail)
    rw [profileW_of_some hc]
    exact ⟨rfl, rfl, (BitVec.toNat_ofNat k 4).trans (Nat.mod_eq_of_lt (by omega))⟩

end Sys2Proof.Machine

/-! Proofs about a decode as a sequence of fetch outcomes (41, 43): what the block does with a byte or the end of the
buffer, where a decode on a given buffer ends, and that the byte steps and the transaction end there. -/

namespace Sys2Proof.Machine

-- ==== One fetch outcome (41 R102 to R106) ====

/-- The machine with the block `b`: what the host holds stays. -/
def State.setBlock (s : State) (b : Block) : State := { s with toBlock := b }

@[simp] theorem State.setBlock_toBlock (s : State) (b : Block) : (s.setBlock b).toBlock = b := rfl
@[simp] theorem State.setBlock_toBuffer (s : State) (b : Block) : (s.setBlock b).toBuffer = s.toBuffer := rfl
@[simp] theorem State.setBlock_src (s : State) (b : Block) : (s.setBlock b).src = s.src := rfl
@[simp] theorem State.setBlock_host (s : State) (b : Block) : (s.setBlock b).host = s.host := rfl

/-- The block after the fetch outcome `o` at its index: a byte, or none. -/
def Block.absorb (b : Block) : Option Byte → Block
  | none => Block.truncated
  | some d =>
    if b.idx.toNat < Config.leadBytes then
      { ph := if contBit d then .busy else .done, acc := pushLead b.acc (payload d), idx := b.idx + 1 }
    else { ph := .done, acc := pushLast b.acc d, idx := b.idx + 1 }

theorem Block.absorb_cont {b : Block} {d : Byte} (hi : b.idx.toNat < 8) (hd : contBit d = true) :
    b.absorb (some d) = { ph := .busy, acc := pushLead b.acc (payload d), idx := b.idx + 1 } := by
  simp [Block.absorb, hi, hd]

theorem Block.absorb_term {b : Block} {d : Byte} (hi : b.idx.toNat < 8) (hd : contBit d = false) :
    b.absorb (some d) = { ph := .done, acc := pushLead b.acc (payload d), idx := b.idx + 1 } := by
  simp [Block.absorb, hi, hd]

theorem Block.absorb_last {b : Block} (hi : b.idx.toNat = 8) (d : Byte) :
    b.absorb (some d) = { ph := .done, acc := pushLast b.acc d, idx := b.idx + 1 } := by
  simp [Block.absorb, hi]

/-- What a fetch finds at an index when the outcome there is `o`. -/
def fetchedAt (idx : Nat) : Option Byte → Fetched
  | some d => classify idx d
  | none => endAt idx

/-- At an index of 0 to 8 a running decode absorbs the fetch outcome. -/
theorem afterFetch_fetchedAt {s : State} (hb : s.ph = .busy) (hi : s.idx.toNat ≤ 8) (o : Option Byte) :
    afterFetch (fetchedAt s.idx.toNat o) s = .next (s.setBlock (s.toBlock.absorb o)) := by
  cases o with
  | none => rw [fetchedAt, endAt_noByte hi]; rfl
  | some d =>
    rw [fetchedAt, afterFetch_classify hb hi, Block.absorb]
    split <;> rfl

/-- Above index 8 no fetch outcome has a meaning (log entry 4). -/
theorem fetchedAt_outOfRange {idx : Nat} (hi : 8 < idx) (o : Option Byte) : fetchedAt idx o = .outOfRange := by
  cases o with
  | none => exact endAt_outOfRange hi
  | some d => rw [fetchedAt, classify, decodeByte_noFormat hi]

/-- A running decode that goes on after a fetch outcome was at an index of 0 to 8. -/
theorem idx_le_of_afterFetch_fetchedAt {s t : State} {o : Option Byte}
    (h : afterFetch (fetchedAt s.idx.toNat o) s = .next t) : s.idx.toNat ≤ 8 := by
  by_contra hi
  rw [fetchedAt_outOfRange (Nat.lt_of_not_le hi)] at h
  cases h

/-- The buffer's fetch outcome at index `i` is `o` (20 R41). -/
def Presents (buf : Buffer) (i : Nat) : Option Byte → Prop
  | some d => i < buf.len ∧ Memory.read buf.mem i = some d
  | none => buf.len ≤ i

/-- The fetch of a byte step finds the buffer's outcome. -/
theorem fetchByte_of_presents {buf : Buffer} {idx : Index} {o : Option Byte} (hi : idx.toNat ≤ 8)
    (h : Presents buf idx.toNat o) : fetchByte buf idx = fetchedAt idx.toNat o := by
  cases o with
  | none => rw [fetchByte_noByte hi h, fetchedAt, endAt_noByte hi]
  | some d => exact fetchByte_byte hi h.1 h.2

/-- A byte step absorbs the buffer's outcome at the index. -/
theorem byteStep_of_presents {s : State} {o : Option Byte} (hb : s.ph = .busy) (hi : s.idx.toNat ≤ 8)
    (h : Presents s.toBuffer s.idx.toNat o) : byteStep s = .next (s.setBlock (s.toBlock.absorb o)) := by
  rw [byteStep, fetchByte_of_presents hi h, afterFetch_fetchedAt hb hi]

/-- A byte step that answers a next state found a byte or the end of the buffer at an index of 0 to 8. -/
theorem byteStep_next {s t : State} (hb : s.ph = .busy) (h : byteStep s = .next t) :
    s.idx.toNat ≤ 8 ∧ ∃ o, Presents s.toBuffer s.idx.toNat o ∧ t = s.setBlock (s.toBlock.absorb o) := by
  have hi : s.idx.toNat ≤ 8 := by
    by_contra hi
    rw [byteStep, fetchByte_outOfRange (Nat.lt_of_not_le hi)] at h
    cases h
  have absorbed : ∀ {o}, Presents s.toBuffer s.idx.toNat o →
      ∃ o, Presents s.toBuffer s.idx.toNat o ∧ t = s.setBlock (s.toBlock.absorb o) := by
    intro o ho
    rw [byteStep_of_presents hb hi ho] at h
    cases h
    exact ⟨o, ho, rfl⟩
  refine ⟨hi, ?_⟩
  rcases memRead_cases s.toBuffer s.idx.toNat with ⟨hl, -⟩ | ⟨hl, d, hr, -⟩ | ⟨-, -, hm⟩
  · exact absorbed (o := none) hl
  · exact absorbed (o := some d) ⟨hl, hr⟩
  · simp [byteStep, fetchByte, Nat.lt_succ_of_le hi, hm, afterFetch] at h

-- ==== A sequence of fetch outcomes ====

/-- The block after the fetch outcomes `os`, of which it takes none once the decode has ended. -/
def Block.absorbAll (b : Block) (os : List (Option Byte)) : Block :=
  os.foldl (fun b o => if b.ph = .busy then b.absorb o else b) b

@[simp] theorem Block.absorbAll_nil (b : Block) : b.absorbAll [] = b := rfl

theorem Block.absorbAll_append (b : Block) (os os' : List (Option Byte)) :
    b.absorbAll (os ++ os') = (b.absorbAll os).absorbAll os' := List.foldl_append

/-- A running decode takes the first outcome. -/
theorem Block.absorbAll_cons {b : Block} (hb : b.ph = .busy) (o : Option Byte) (os : List (Option Byte)) :
    b.absorbAll (o :: os) = (b.absorb o).absorbAll os := by
  rw [Block.absorbAll, List.foldl_cons, if_pos hb]
  rfl

/-- An ended decode takes no outcome (41 R107). -/
theorem Block.absorbAll_not_busy {b : Block} (hb : b.ph ≠ .busy) (os : List (Option Byte)) : b.absorbAll os = b := by
  induction os with
  | nil => rfl
  | cons o os ih => rwa [Block.absorbAll, List.foldl_cons, if_neg hb]

/-- The result of what is left of a buffer for a running decode: the loop of DECODE from its index on. -/
def Block.decodeRest (b : Block) (buf : List Byte) : Result := decodeLoop b.idx.toNat b.acc buf

theorem Block.started_decodeRest (buf : List Byte) : Block.started.decodeRest buf = decodeOperation buf := rfl

/-- A byte at an index of 0 to 8 leaves the decode running, one index on, or ends it with the result of DECODE. -/
theorem Block.absorb_some_cases {b : Block} (hi : b.idx.toNat ≤ 8) (d : Byte) (ds : List Byte) :
    (b.idx.toNat < 8 ∧ (b.absorb (some d)).ph = .busy ∧ (b.absorb (some d)).idx.toNat = b.idx.toNat + 1 ∧
      b.decodeRest (d :: ds) = (b.absorb (some d)).decodeRest ds) ∨
    ((b.absorb (some d)).ph = .done ∧ (b.absorb (some d)).idx.toNat = b.idx.toNat + 1 ∧
      b.decodeRest (d :: ds) = .ok (s64 (b.absorb (some d)).acc) (b.idx.toNat + 1)) := by
  have hidx := idx_succ_toNat hi
  rcases Nat.lt_or_eq_of_le hi with hlt | h8
  · cases hd : contBit d
    · rw [Block.absorb_term hlt hd]
      exact .inr ⟨rfl, hidx, decodeLoop_term hlt hd _ _⟩
    · rw [Block.absorb_cont hlt hd]
      refine .inl ⟨hlt, rfl, hidx, (decodeLoop_cont hlt hd _ _).trans ?_⟩
      rw [Block.decodeRest, hidx]
  · rw [Block.absorb_last h8, Block.decodeRest, h8]
    exact .inr ⟨rfl, h8 ▸ hidx, decodeLoop_last _ _ _⟩

/-- The fetch outcomes a buffer gives, in order: its bytes, then the end. -/
def outcomes (buf : List Byte) : List (Option Byte) := buf.map some ++ [none]

/-- The block shows the result `r` of a decode (41 R108, R106). -/
def Block.Shows (b : Block) : Result → Prop
  | .ok v k => b.ph = .done ∧ s64 b.acc = v ∧ b.idx.toNat = k
  | .error _ => b = Block.truncated

/-- A block that shows a result has ended its decode, and the machine's result is that one. -/
theorem Block.Shows.result {s : State} {r : Result} (h : s.toBlock.Shows r) :
    s.result = some r ∧ (s.ph = .done ∨ s.ph = .err ∧ s.acc = 0 ∧ s.idx = 0) := by
  cases r with
  | ok v k =>
    obtain ⟨hph, rfl, rfl⟩ := h
    exact ⟨State.result_done hph, .inl hph⟩
  | error e =>
    have hph : s.ph = .err := congrArg Block.ph h
    exact ⟨State.result_err hph, .inr ⟨hph, congrArg Block.acc h, congrArg Block.idx h⟩⟩

/-- All the outcomes of a buffer lead a running decode to the result of DECODE (41 R110). -/
theorem Block.absorbAll_outcomes_shows {b : Block} (hb : b.ph = .busy) (hi : b.idx.toNat ≤ 8) (buf : List Byte) :
    (b.absorbAll (outcomes buf)).Shows (b.decodeRest buf) := by
  induction buf generalizing b with
  | nil =>
    rw [outcomes, List.map_nil, List.nil_append, Block.absorbAll_cons hb]
    rfl
  | cons d ds ih =>
    have hcons : b.absorbAll (outcomes (d :: ds)) = (b.absorb (some d)).absorbAll (outcomes ds) :=
      Block.absorbAll_cons hb _ _
    rcases Block.absorb_some_cases hi d ds with ⟨hlt, hph, hidx, hrest⟩ | ⟨hph, hidx, hrest⟩
    · rw [hcons, hrest]
      exact ih hph (by omega)
    · rw [hcons, hrest, Block.absorbAll_not_busy (by simp [hph])]
      exact ⟨hph, rfl, hidx⟩

/-- How many outcomes of a buffer a running decode takes (41 R111). -/
def Block.stepsLeft (b : Block) (buf : List Byte) : Nat :=
  match b.decodeRest buf with
  | .ok _ k => k - b.idx.toNat
  | .error _ => buf.length + 1

theorem Block.started_stepsLeft (buf : List Byte) : Block.started.stepsLeft buf = byteStepCount buf := by
  rw [Block.stepsLeft, Block.started_decodeRest, byteStepCount]
  cases decodeOperation buf <;> rfl

/-- A byte that leaves the decode running is one outcome more than those it takes afterwards. -/
theorem Block.stepsLeft_cons {b : Block} {d : Byte} {ds : List Byte} (hlt : b.idx.toNat < 8)
    (hidx : (b.absorb (some d)).idx.toNat = b.idx.toNat + 1)
    (hrest : b.decodeRest (d :: ds) = (b.absorb (some d)).decodeRest ds) :
    b.stepsLeft (d :: ds) = (b.absorb (some d)).stepsLeft ds + 1 := by
  rw [Block.stepsLeft, Block.stepsLeft, hrest]
  cases hr : (b.absorb (some d)).decodeRest ds with
  | error e => rfl
  | ok v k =>
    obtain ⟨t, -, hk, -⟩ := decodeLoop_ok (by omega) hr
    simp only
    omega

/-- A running decode takes `stepsLeft` outcomes: before that it runs, its index counting them, and the outcomes after
them change nothing. -/
theorem Block.absorbAll_take {b : Block} (hb : b.ph = .busy) (hi : b.idx.toNat ≤ 8) (buf : List Byte) (n : Nat) :
    (n < b.stepsLeft buf → (b.absorbAll ((outcomes buf).take n)).ph = .busy ∧
      (b.absorbAll ((outcomes buf).take n)).idx.toNat = b.idx.toNat + n) ∧
    (b.stepsLeft buf ≤ n → b.absorbAll ((outcomes buf).take n) = b.absorbAll (outcomes buf)) := by
  induction buf generalizing b n with
  | nil =>
    have hsteps : b.stepsLeft [] = 1 := rfl
    cases n with
    | zero => exact ⟨fun _ => ⟨hb, rfl⟩, fun h => by omega⟩
    | succ n => exact ⟨fun h => by omega, fun _ => by simp [outcomes]⟩
  | cons d ds ih =>
    have hcons : ∀ n, b.absorbAll ((outcomes (d :: ds)).take (n + 1)) =
      (b.absorb (some d)).absorbAll ((outcomes ds).take n) := fun n => Block.absorbAll_cons hb _ _
    have hall : b.absorbAll (outcomes (d :: ds)) = (b.absorb (some d)).absorbAll (outcomes ds) :=
      Block.absorbAll_cons hb _ _
    rcases Block.absorb_some_cases hi d ds with ⟨hlt, hph, hidx, hrest⟩ | ⟨hph, hidx, hrest⟩
    · have hsteps := Block.stepsLeft_cons hlt hidx hrest
      cases n with
      | zero => exact ⟨fun _ => ⟨hb, rfl⟩, fun h => by omega⟩
      | succ n =>
        obtain ⟨hbefore, hafter⟩ := ih hph (by omega) n
        rw [hcons, hall]
        refine ⟨fun h => ?_, fun h => hafter (by omega)⟩
        obtain ⟨hbusy, hcount⟩ := hbefore (by omega)
        exact ⟨hbusy, by omega⟩
    · have hsteps : b.stepsLeft (d :: ds) = 1 := by
        rw [Block.stepsLeft, hrest]
        exact Nat.add_sub_cancel_left _ 1
      cases n with
      | zero => exact ⟨fun _ => ⟨hb, rfl⟩, fun h => by omega⟩
      | succ n =>
        rw [hcons, hall, Block.absorbAll_not_busy (by simp [hph]), Block.absorbAll_not_busy (by simp [hph])]
        exact ⟨fun h => by omega, fun _ => rfl⟩

/-- A decode takes at most nine outcomes. -/
theorem byteStepCount_le_nine (buf : List Byte) : byteStepCount buf ≤ 9 := by
  rw [byteStepCount]
  cases h : decodeOperation buf with
  | ok v k => exact (count_le h).2
  | error e =>
    cases e
    exact Nat.succ_le_succ ((decodeOperation_error_iff buf).1 h).1

/-- Where a decode on the buffer `buf` ends. -/
def endOf (buf : List Byte) : Block := Block.started.absorbAll (outcomes buf)

theorem endOf_shows (buf : List Byte) : (endOf buf).Shows (decodeOperation buf) :=
  Block.absorbAll_outcomes_shows (b := Block.started) rfl (by decide) buf

/-- Before the last of its outcomes a decode runs, its index counting them. -/
theorem started_absorbAll_take_lt {buf : List Byte} {n : Nat} (h : n < byteStepCount buf) :
    (Block.started.absorbAll ((outcomes buf).take n)).ph = .busy ∧
      (Block.started.absorbAll ((outcomes buf).take n)).idx.toNat = n := by
  rw [← Block.started_stepsLeft] at h
  simpa [Block.started] using (Block.absorbAll_take (b := Block.started) rfl (by decide) buf n).1 h

/-- From the last of its outcomes on a decode is at its end. -/
theorem started_absorbAll_take_ge {buf : List Byte} {n : Nat} (h : byteStepCount buf ≤ n) :
    Block.started.absorbAll ((outcomes buf).take n) = endOf buf := by
  rw [← Block.started_stepsLeft] at h
  exact (Block.absorbAll_take (b := Block.started) rfl (by decide) buf n).2 h

end Sys2Proof.Machine

/-! Proofs about a decode on a buffer handed over (40, 41, 43 section 1): the whole varint read at once, the
transaction, `START` with its byte steps, and where the model stops. -/

namespace Sys2Proof.Machine

-- ==== A length form as the end of its bytes (40 R80, 41 R110) ====

/-- A running decode takes continuation bytes, pushing their payloads. -/
theorem Block.absorbAll_contBytes (ps : List Payload) {b : Block} (hb : b.ph = .busy)
    (hi : b.idx.toNat + ps.length ≤ 8) :
    b.absorbAll ((ps.map contByte).map some) =
      { ph := .busy, acc := ps.foldl pushLead b.acc, idx := b.idx + BitVec.ofNat 4 ps.length } := by
  induction ps generalizing b with
  | nil =>
    obtain ⟨ph, acc, idx⟩ := b
    cases hb
    simp
  | cons p ps ih =>
    rw [List.length_cons] at hi
    have hidx := idx_succ_toNat (k := b.idx) (by omega)
    rw [List.map_cons, List.map_cons, Block.absorbAll_cons hb, Block.absorb_cont (by omega) (contBit_contByte p),
      ih rfl (by simp only [hidx]; omega), payload_contByte]
    simp [BitVec.ofNat_add, BitVec.add_assoc, BitVec.add_comm]

/-- From `START`, continuation bytes and a terminating byte end the decode with all their payloads. -/
theorem started_absorbAll_short {ps : List Payload} (hlen : ps.length ≤ 7) (p : Payload) :
    Block.started.absorbAll ((ps.map contByte ++ [termByte p]).map some) =
      Block.ended (assembleLead (ps ++ [p])) (BitVec.ofNat 4 (ps.length + 1)) := by
  have hidx : (Block.started.idx + BitVec.ofNat 4 ps.length).toNat = ps.length := by
    simp [Block.started]; omega
  rw [List.map_append, Block.absorbAll_append, Block.absorbAll_contBytes ps rfl (by simp [Block.started]; omega),
    List.map_singleton, Block.absorbAll_cons rfl, Block.absorb_term (by simp only [hidx]; omega) (contBit_termByte p),
    payload_termByte, assembleLead_append]
  simp [Block.started, Block.ended, assembleLead, BitVec.ofNat_add]

/-- From `START`, eight continuation bytes and a ninth byte end the decode with all of them. -/
theorem started_absorbAll_long {ps : List Payload} (hlen : ps.length = 8) (d : Byte) :
    Block.started.absorbAll ((ps.map contByte ++ [d]).map some) = Block.ended (pushLast (assembleLead ps) d) 9 := by
  rw [List.map_append, Block.absorbAll_append, Block.absorbAll_contBytes ps rfl (by simp [Block.started]; omega),
    List.map_singleton, Block.absorbAll_cons rfl, Block.absorb_last (by simp only [hlen]; decide), hlen]
  rfl

/-- A length form leaves the block where its bytes lead a decode, `DONE` with its size as the count. -/
theorem lengthForm_ends {i : Instr} (hi : i.isByteClass = false) :
    ∃ acc k, k.toNat = i.size ∧ Block.started.absorbAll ((encode i).map some) = Block.ended acc k ∧
      ∀ s, exec i s = .next (s.setBlock (Block.ended acc k)) := by
  cases i with
  | cont => cases hi
  | term => cases hi
  | last => cases hi
  | v1 a => exact ⟨_, _, rfl, started_absorbAll_short (ps := []) (by decide) a, fun _ => rfl⟩
  | v2 a b => exact ⟨_, _, rfl, started_absorbAll_short (ps := [a]) (by simp) b, fun _ => rfl⟩
  | v3 a b c => exact ⟨_, _, rfl, started_absorbAll_short (ps := [a, b]) (by simp) c, fun _ => rfl⟩
  | v4 a b c d => exact ⟨_, _, rfl, started_absorbAll_short (ps := [a, b, c]) (by simp) d, fun _ => rfl⟩
  | v5 a b c d e => exact ⟨_, _, rfl, started_absorbAll_short (ps := [a, b, c, d]) (by simp) e, fun _ => rfl⟩
  | v6 a b c d e f => exact ⟨_, _, rfl, started_absorbAll_short (ps := [a, b, c, d, e]) (by simp) f, fun _ => rfl⟩
  | v7 a b c d e f g =>
    exact ⟨_, _, rfl, started_absorbAll_short (ps := [a, b, c, d, e, f]) (by simp) g, fun _ => rfl⟩
  | v8 a b c d e f g h =>
    exact ⟨_, _, rfl, started_absorbAll_short (ps := [a, b, c, d, e, f, g]) (by simp) h, fun _ => rfl⟩
  | v9 a b c d e f g h d9 =>
    exact ⟨_, _, rfl, started_absorbAll_long (ps := [a, b, c, d, e, f, g, h]) rfl d9, fun _ => rfl⟩

/-- A length form leaves the block where its bytes lead a decode. -/
theorem exec_lengthForm_eq {i : Instr} (hi : i.isByteClass = false) (s : State) :
    exec i s = .next (s.setBlock (Block.started.absorbAll ((encode i).map some))) := by
  obtain ⟨acc, k, -, hend, hexec⟩ := lengthForm_ends hi
  rw [hend, hexec]

/-- A buffer that begins with a length form leads a decode where the form's bytes do. -/
theorem endOf_of_decodeVarint {buf rest : List Byte} {i : Instr} (h : decodeVarint buf = .ok (i, rest)) :
    endOf buf = Block.started.absorbAll ((encode i).map some) := by
  obtain ⟨acc, k, -, hend, -⟩ := lengthForm_ends (decodeVarint_isLengthForm h)
  rw [endOf, outcomes, ← encode_of_decodeVarint h, List.map_append, List.append_assoc, Block.absorbAll_append, hend,
    Block.absorbAll_not_busy (by simp [Block.ended])]

/-- A buffer that begins with no length form leads a decode to `TruncatedInput`. -/
theorem endOf_of_decodeVarint_error {buf : List Byte} {r : Reject} (h : decodeVarint buf = .error r) :
    endOf buf = Block.truncated := by
  obtain ⟨hlen, hall⟩ := cont_of_decodeVarint_error h
  have hshows := endOf_shows buf
  rwa [(decodeOperation_error_iff buf).2 ⟨Nat.le_of_lt_succ hlen, hall⟩] at hshows

-- ==== The whole varint read at once (40 R80) ====

/-- The bytes read at once are those of one length form. -/
theorem encode_of_gather {buf : Buffer} {g : List Byte} (h : gather buf Config.maxBytes 0 = .bytes g) :
    ∃ i, decodeVarint g = .ok (i, []) ∧ encode i = g := by
  obtain ⟨h9, -, hset, hlast⟩ := gather_bytes buf _ 0 g h
  have hend : 9 ≤ g.length ∨ ∃ b ∈ g, contBit b = false := by
    rcases Nat.lt_or_ge g.length 9 with hlt | hge
    · obtain ⟨hne, hclear⟩ := hlast hlt
      have hpos : g.length - 1 < g.length := Nat.sub_lt (List.length_pos_iff.2 hne) (by decide)
      exact .inr ⟨_, List.getElem_mem hpos, by rwa [List.getD_eq_getElem _ _ hpos] at hclear⟩
    · exact .inl hge
  obtain ⟨i, rest, hd⟩ := decodeVarint_answers hend
  obtain ⟨t, ht8, -, rfl, -, hclear⟩ := decodeVarint_ok hd
  have hle : g.length ≤ t + 1 := by
    by_contra hlt
    have hset := hset t (by omega)
    rw [hclear (by simp at h9; omega)] at hset
    cases hset
  rw [List.drop_eq_nil_of_le hle] at hd
  exact ⟨i, hd, by simpa using encode_of_decodeVarint hd⟩

/-- Reading a whole varint finds a length form whose bytes are the buffer's, or the end of the buffer after at most
eight continuation bytes, or a byte the host did not supply. -/
theorem fetchVarint_cases (buf : Buffer) :
    (∃ i, i.isByteClass = false ∧ (∀ j < (encode i).length, Presents buf j (some ((encode i).getD j 0))) ∧
      fetchVarint buf = .instr i) ∨
    (buf.len ≤ 8 ∧ (∀ j < buf.len, ContAt buf j) ∧ fetchVarint buf = .noByte) ∨
    (gather buf Config.maxBytes 0 = .notSupplied ∧ fetchVarint buf = .notSupplied) := by
  cases h : gather buf Config.maxBytes 0 with
  | bytes g =>
    obtain ⟨i, hd, rfl⟩ := encode_of_gather h
    obtain ⟨-, hread, -, -⟩ := gather_bytes buf _ 0 _ h
    refine .inl ⟨i, decodeVarint_isLengthForm hd, fun j hj => ?_, by rw [fetchVarint, h]; simp only [hd]⟩
    simpa [Presents] using hread j hj
  | noByte =>
    obtain ⟨hlen, hcont⟩ := gather_noByte buf _ 0 h
    exact .inr (.inl ⟨by simp at hlen; omega, fun j => hcont j (Nat.zero_le j), by rw [fetchVarint, h]⟩)
  | notSupplied => exact .inr (.inr ⟨rfl, by rw [fetchVarint, h]⟩)

-- ==== A truthful hand-over (43 R142) ====

/-- A byte the buffer presents is the list's. -/
theorem getElem?_of_presents_handOver {s : State} {r : Request} {n : Nat} {d : Byte}
    (h : Presents (s.handOver r).toBuffer n (some d)) : r.buffer[n]? = some d := by
  obtain ⟨hlt, hread⟩ := h
  have hlt : n < r.len := hlt
  rw [Request.buffer, List.getElem?_take_of_lt hlt, ← Memory.read_ofBytes]
  exact hread

section
variable {r : Request} (hr : r.truthful)
include hr

theorem Request.buffer_length : r.buffer.length = r.len := List.length_take_of_le hr

/-- A buffer handed over truthfully presents its bytes and its end. -/
theorem presents_handOver (s : State) {n : Nat} {o : Option Byte} (h : (outcomes r.buffer)[n]? = some o) :
    Presents (s.handOver r).toBuffer n o := by
  have hlen := Request.buffer_length hr
  rcases Nat.lt_trichotomy n r.buffer.length with hn | rfl | hn
  · rw [outcomes, List.getElem?_append_left (by simpa using hn), List.getElem?_map, List.getElem?_eq_getElem hn] at h
    cases h
    refine ⟨hn.trans_eq hlen, (Memory.read_ofBytes _ _).trans ?_⟩
    rw [← List.getElem?_eq_getElem hn, Request.buffer, List.getElem?_take_of_lt (hn.trans_eq hlen)]
  · rw [outcomes, List.getElem?_append_right (by simp)] at h
    obtain rfl : none = o := by simpa using h
    exact hlen.ge
  · rw [List.getElem?_eq_none (by simp [outcomes]; omega)] at h
    cases h

/-- Reading a whole varint from a buffer handed over truthfully is decoding its bytes. -/
theorem fetchVarint_handOver_cases (s : State) :
    (∃ i rest, decodeVarint r.buffer = .ok (i, rest) ∧ fetchVarint (s.handOver r).toBuffer = .instr i) ∨
    (∃ e, decodeVarint r.buffer = .error e ∧ fetchVarint (s.handOver r).toBuffer = .noByte) := by
  have hlen := Request.buffer_length hr
  rcases fetchVarint_cases (s.handOver r).toBuffer with ⟨i, hi, hread, hf⟩ | ⟨h8, hcont, hf⟩ | ⟨hg, -⟩
  · have hpre : encode i <+: r.buffer := by
      refine List.prefix_iff_getElem?.2 fun j hj => ?_
      rw [getElem?_of_presents_handOver (hread j hj), List.getD_eq_getElem _ _ hj]
    obtain ⟨rest, hrest⟩ := hpre
    exact .inl ⟨i, rest, by rw [← hrest, decodeVarint_encode hi], hf⟩
  · refine .inr ⟨.truncated, (decodeVarint_truncated_iff (by rw [hlen]; exact Nat.lt_succ_of_le h8)).2 ?_, hf⟩
    intro b hb
    obtain ⟨j, hj, rfl⟩ := List.getElem_of_mem hb
    obtain ⟨c, hc, hbit⟩ := hcont j (hj.trans_eq hlen)
    have hsame := getElem?_of_presents_handOver (s := s) (d := c) ⟨hj.trans_eq hlen, hc⟩
    rw [List.getElem?_eq_getElem hj] at hsame
    cases hsame
    exact hbit
  · refine absurd hg (gather_supplied _ (fun j hj => ?_) _ 0)
    have hj' : j < r.bytes.length := Nat.lt_of_lt_of_le hj hr
    exact ⟨r.bytes[j], (Memory.read_ofBytes _ _).trans (List.getElem?_eq_getElem hj')⟩

/-- The operation DECODE on a buffer handed over truthfully leaves the block where its outcomes lead a decode. -/
theorem decodeStep_handOver (s : State) :
    decodeStep (s.handOver r) = .next ((s.handOver r).setBlock (endOf r.buffer)) := by
  rcases fetchVarint_handOver_cases hr s with ⟨i, rest, hd, hf⟩ | ⟨e, hd, hf⟩
  · rw [decodeStep, hf, endOf_of_decodeVarint hd]
    exact exec_lengthForm_eq (decodeVarint_isLengthForm hd) _
  · rw [decodeStep, hf, endOf_of_decodeVarint_error hd]
    rfl

end

/-- Settles O43: the transaction ends where the outcomes of its buffer lead, with the result of DECODE. -/
theorem transactionComputesDecode : Obligations.TransactionComputesDecode := by
  unfold Obligations.TransactionComputesDecode
  intro s r rest hb hr hh
  refine ⟨_, (step_decode hb hh).trans (decodeStep_handOver hr _), ?_⟩
  obtain ⟨hresult, hph⟩ :=
    Block.Shows.result (s := ((s.setHost rest).handOver r).setBlock (endOf r.buffer)) (endOf_shows r.buffer)
  refine ⟨hresult, rfl, rfl, rfl, hph.imp_left fun h => ⟨h, ?_⟩⟩
  rw [State.errFlag_eq_false, h]
  decide

-- ==== `START` and byte steps (41 section 4) ====

/-- A run that begins with a step. -/
theorem run_succ {s t : State} (h : step s = .next t) (n : Nat) : run (n + 1) s = run n t := by
  rw [run, h]

/-- Two runs, one after the other. -/
theorem run_add {m : Nat} {s t : State} (h : run m s = .next t) (n : Nat) : run (m + n) s = run n t := by
  induction m generalizing s with
  | zero => cases h; rw [Nat.zero_add]
  | succ m ih =>
    rw [run] at h
    cases hs : step s with
    | next u => rw [hs] at h; rw [Nat.succ_add, run_succ hs, ih h]
    | fault f => rw [hs] at h; cases h
    | refused e => rw [hs] at h; cases h

/-- The machine after `START` on the buffer of `r`. -/
def State.startedOn (s : State) (r : Request) : State := (s.handOver r).startDecode .buffer

theorem outcomes_length (buf : List Byte) : (outcomes buf).length = buf.length + 1 := by simp [outcomes]

/-- A decode takes no more outcomes than its buffer has. -/
theorem byteStepCount_le_outcomes (buf : List Byte) : byteStepCount buf ≤ (outcomes buf).length := by
  rw [byteStepCount, outcomes_length]
  cases h : decodeOperation buf with
  | ok v k => exact Nat.le_succ_of_le (count_le h).1
  | error e => exact le_rfl

/-- Byte steps after `START` absorb the buffer's outcomes one by one, until the decode has ended. -/
theorem run_startedOn {r : Request} (hr : r.truthful) (s : State) {n : Nat} (hn : n ≤ byteStepCount r.buffer) :
    run n (s.startedOn r) =
      .next ((s.startedOn r).setBlock (Block.started.absorbAll ((outcomes r.buffer).take n))) := by
  induction n with
  | zero => rfl
  | succ n ih =>
    obtain ⟨hph, hidx⟩ := started_absorbAll_take_lt hn
    have h8 : n ≤ 8 := Nat.le_of_succ_le_succ (hn.trans (byteStepCount_le_nine r.buffer))
    have hlt : n < (outcomes r.buffer).length := Nat.lt_of_succ_le (hn.trans (byteStepCount_le_outcomes r.buffer))
    have hnext : Block.started.absorbAll ((outcomes r.buffer).take (n + 1)) =
        (Block.started.absorbAll ((outcomes r.buffer).take n)).absorb (outcomes r.buffer)[n] := by
      rw [← List.take_append_getElem hlt, Block.absorbAll_append, Block.absorbAll_cons hph]
      rfl
    have hpresents : Presents (s.startedOn r).toBuffer
        (Block.started.absorbAll ((outcomes r.buffer).take n)).idx.toNat (outcomes r.buffer)[n] := by
      rw [hidx]
      exact presents_handOver hr s (List.getElem?_eq_getElem hlt)
    rw [run_add (ih (Nat.le_of_succ_le hn)), hnext]
    refine run_succ (n := 0) ((step_alone ((State.runsAlone_iff _).2 ⟨hph, rfl⟩)).trans ?_)
    exact byteStep_of_presents hph (hidx.trans_le h8) hpresents

/-- From before `START`: the start, and then the byte steps. -/
theorem run_start {s : State} {r : Request} {rest : List HostMove} (hb : s.ph ≠ .busy) (hr : r.truthful)
    (hh : s.host = .start r :: rest) {n : Nat} (hn : n ≤ byteStepCount r.buffer) :
    run (1 + n) s = .next (((s.setHost rest).startedOn r).setBlock
      (Block.started.absorbAll ((outcomes r.buffer).take n))) :=
  (run_add (run_succ (step_start hb hh) 0) n).trans (run_startedOn hr _ hn)

/-- The start and all the byte steps of the decode. -/
theorem run_stepCount {s : State} {r : Request} {rest : List HostMove} (hb : s.ph ≠ .busy) (hr : r.truthful)
    (hh : s.host = .start r :: rest) :
    run (stepCount r.buffer) s = .next (((s.setHost rest).startedOn r).setBlock (endOf r.buffer)) := by
  rw [stepCount, run_start hb hr hh le_rfl, started_absorbAll_take_ge le_rfl]

/-- Settles O44: the outcomes of the buffer, absorbed one by one, end with the result of DECODE after as many as it
takes. -/
theorem byteStepsComputeDecode : Obligations.ByteStepsComputeDecode := by
  unfold Obligations.ByteStepsComputeDecode
  intro s r rest hb hr hh
  refine ⟨⟨_, run_stepCount hb hr hh, ?_, rfl⟩, fun n h1 hn => ?_⟩
  · exact (Block.Shows.result (s := ((s.setHost rest).startedOn r).setBlock (endOf r.buffer)) (endOf_shows r.buffer)).1
  · obtain ⟨m, rfl⟩ := Nat.exists_eq_add_of_le h1
    have hm : m < byteStepCount r.buffer := Nat.lt_of_add_lt_add_left hn
    obtain ⟨hph, hidx⟩ := started_absorbAll_take_lt hm
    exact ⟨_, run_start hb hr hh hm.le, hph, hidx.trans (Nat.add_sub_cancel_left 1 m).symm⟩

/-- Settles O45: both levels end where the outcomes of the buffer lead. -/
theorem bigStepEqualsSmallSteps : Obligations.BigStepEqualsSmallSteps := by
  unfold Obligations.BigStepEqualsSmallSteps
  intro s r rest hb hr
  have hsmall := run_stepCount (s := s.setHost (.start r :: rest)) (rest := rest) hb hr rfl
  have hbig := (step_decode (s := s.setHost (.decode r :: rest)) (rest := rest) hb rfl).trans (decodeStep_handOver hr _)
  rw [hsmall, hbig]
  rfl

-- ==== The instruction a step runs (40, 41 section 1, 43) ====

/-- The transaction on a buffer handed over truthfully executes the length form it begins with. -/
theorem decodeStep_eq_exec {r : Request} (hr : r.truthful) {i : Instr} {rest : List Byte}
    (hd : decodeVarint r.buffer = .ok (i, rest)) (s : State) : decodeStep (s.handOver r) = exec i (s.handOver r) := by
  rw [decodeStep_handOver hr, endOf_of_decodeVarint hd, exec_lengthForm_eq (decodeVarint_isLengthForm hd)]

/-- A byte of the buffer that stands for an instruction at the index is executed by a byte step. -/
theorem step_eq_exec {s : State} {b : Byte} {i : Instr} (ha : s.runsAlone = true) (hl : s.idx.toNat < s.len)
    (hr : Memory.read s.mem s.idx.toNat = some b) (hd : decodeByte s.idx.toNat b = .ok i) : step s = exec i s := by
  have hi : s.idx.toNat ≤ 8 := by
    by_contra hi
    cases (decodeByte_noFormat (Nat.lt_of_not_le hi) b).symm.trans hd
  rw [step_alone ha, (fetchByte_byteStep_of_decodeByte hi hl hr hd).2]

/-- The state of a decode on the stream does not run alone. -/
theorem State.runsAlone_of_stream {s : State} (h : s.src = .stream) : s.runsAlone = false := by
  simp [State.runsAlone, h]

/-- Settles O41: the byte step, the transaction and the edge each execute what their bytes decode to. -/
theorem stepRunsDecodedInstruction : Obligations.StepRunsDecodedInstruction := by
  unfold Obligations.StepRunsDecodedInstruction
  refine ⟨fun s b i => step_eq_exec, fun s r rest i tail hb hr hh hd => ?_,
    fun s p rest i hb hsrc hh hrst hvalid hend hd => ?_⟩
  · rw [step_decode hb hh, decodeStep_eq_exec hr hd]
  · have hevent : event p (s.setHost rest).ph = .byte p.inByte := by
      rw [State.setHost_ph, hb, event_busy, hrst, hvalid, hend]
      rfl
    rw [step_host (State.runsAlone_of_stream hsrc) hh]
    exact edge_of_event_byte hevent hd

/-- A byte placed at the fetch is the whole buffer of a decode just started (log entry 12). -/
theorem withFetchWord_byte (s : State) (b : Byte) :
    s.withFetchWord 8 b.toNat = s.startedOn { bytes := [b], len := 1 } := by
  simp [State.withFetchWord, placeInstruction, bytesOfWord, State.startedOn]

/-- A table word of two bytes or more is read as the length form its bytes begin with. -/
theorem decodeVarint_of_decodeTableWord {k w : Nat} {i : Instr} (hk : 2 ≤ k) (h : decodeTableWord (8 * k) w = some i) :
    ∃ rest, decodeVarint (bytesOfWord k w) = .ok (i, rest) := by
  rw [decodeTableWord, if_neg (by omega), Nat.mul_div_cancel_left k (by decide)] at h
  cases hd : decodeVarint (bytesOfWord k w) with
  | error e => rw [hd] at h; cases h
  | ok a => rw [hd] at h; cases h; exact ⟨a.2, rfl⟩

/-- A word of two bytes or more is placed as a transaction on its bytes, outside `BUSY` (log entry 12). -/
theorem withFetchWord_form (s : State) {k : Nat} (hk : 2 ≤ k) (w : Nat) :
    (s.withFetchWord (8 * k) w).ph ≠ .busy ∧
      (s.withFetchWord (8 * k) w).host = .decode { bytes := bytesOfWord k w, len := k } :: s.host := by
  rw [State.withFetchWord, placeInstruction, if_neg (by omega), Nat.mul_div_cancel_left k (by decide)]
  exact ⟨by dsimp only; split <;> simp [*], rfl⟩

/-- A placed length form is executed by the next step, which takes the placed move off the host's queue. -/
theorem step_withFetchWord_form {s : State} {k w : Nat} {i : Instr} (hk : 2 ≤ k)
    (h : decodeTableWord (8 * k) w = some i) :
    i.isByteClass = false ∧ ∃ u : State, u.host = s.host ∧ step (s.withFetchWord (8 * k) w) = exec i u := by
  obtain ⟨rest, hd⟩ := decodeVarint_of_decodeTableWord hk h
  obtain ⟨hph, hhost⟩ := withFetchWord_form s hk w
  have htake : (bytesOfWord k w).take k = bytesOfWord k w := List.take_of_length_le (bytesOfWord_length k w).le
  have htruthful : Request.truthful { bytes := bytesOfWord k w, len := k } := (bytesOfWord_length k w).ge
  have hexec := (step_decode hph hhost).trans (decodeStep_eq_exec htruthful (by rwa [Request.buffer, htake]) _)
  exact ⟨decodeVarint_isLengthForm hd, ((s.withFetchWord (8 * k) w).setHost s.host).handOver _, rfl, hexec⟩

/-- Settles O42: a placed byte is fetched at index 0, and a placed form is the next transaction. -/
theorem placedInstructionRuns : Obligations.PlacedInstructionRuns := by
  unfold Obligations.PlacedInstructionRuns
  refine ⟨fun s b i hd => ⟨?_, ?_⟩, fun s k w i hk h => ?_⟩
  · rw [withFetchWord_byte]
    exact step_eq_exec rfl Nat.one_pos rfl hd
  · rw [decodeTableWord, if_pos rfl, BitVec.ofNat_toNat, BitVec.setWidth_eq, hd]
    rfl
  · obtain ⟨hi, u, hu, hstep⟩ := step_withFetchWord_form (s := s) hk h
    exact ⟨_, _, hstep.trans (exec_lengthForm_eq hi u), exec_lengthForm_eq hi s, rfl, hu⟩

-- ==== Where the model stops (log entries 4, 5 and 6) ====

/-- A byte step above index 8 faults. -/
theorem byteStep_outOfRange {s : State} (hi : 9 ≤ s.idx.toNat) : byteStep s = .fault .indexOutOfRange := by
  rw [byteStep, fetchByte_outOfRange hi, afterFetch]

/-- An edge that presents a byte or the end to a running decode is the fetch of that outcome. -/
theorem edge_presented {p : Pins} {s : State} (hb : s.ph = .busy) (hrst : p.rst = false) (hvalid : p.inValid = true) :
    edge p s = afterFetch (fetchedAt s.idx.toNat (if p.inEnd then none else some p.inByte)) s := by
  rw [edge_busy hb, hrst, hvalid]
  cases p.inEnd <;> rfl

/-- A byte class in `BUSY` at an index where it does not exist is refused. -/
theorem exec_wrongIndex {s : State} {i : Instr} (hb : s.ph = .busy) (hi : i.isByteClass = true)
    (hl : i.legalAt s.idx.toNat = false) : exec i s = .refused .wrongIndex := by
  have refused : ∀ {legal ph acc}, legal = false →
      s.lift (Block.byteClass legal ph acc s.toBlock) = .refused .wrongIndex := by
    rintro legal ph acc rfl
    rw [Block.byteClass_wrong hb]
    rfl
  cases i
  case cont => exact refused (decide_eq_false fun h => of_decide_eq_false hl (Nat.le_of_lt_succ h))
  case term => exact refused (decide_eq_false fun h => of_decide_eq_false hl (Nat.le_of_lt_succ h))
  case last => exact refused hl
  all_goals cases hi

/-- A byte step below `len` at which the host supplied no byte is refused. -/
theorem byteStep_notSupplied {s : State} (hi : s.idx.toNat ≤ 8) (hl : s.idx.toNat < s.len)
    (hr : Memory.read s.mem s.idx.toNat = none) : byteStep s = .refused .byteNotSupplied := by
  have hm : memRead s.toBuffer s.idx.toNat = .notSupplied := by simp [memRead, hl, hr]
  simp [byteStep, fetchByte, Nat.lt_succ_of_le hi, hm, afterFetch]

/-- A transaction whose bytes all have bit 7 set and end before its length needs a byte the host did not supply. -/
theorem decodeStep_notSupplied {r : Request} (hlen : r.bytes.length < r.len) (h8 : r.bytes.length ≤ 8)
    (hall : ∀ b ∈ r.bytes, contBit b = true) (s : State) :
    decodeStep (s.handOver r) = .refused .byteNotSupplied := by
  have hread : ∀ j, Memory.read (s.handOver r).mem j = r.bytes[j]? := Memory.read_ofBytes r.bytes
  rcases fetchVarint_cases (s.handOver r).toBuffer with ⟨i, hi, hpresents, -⟩ | ⟨-, hcont, -⟩ | ⟨-, hf⟩
  · exfalso
    obtain ⟨ps, d, henc, -, hps, hclear⟩ := encode_lengthForm hi
    have hat : ∀ j < (encode i).length, r.bytes[j]? = some ((encode i).getD j 0) := fun j hj =>
      (hread j).symm.trans (hpresents j hj).2
    have hd : r.bytes[ps.length]? = some d := by
      rw [hat ps.length (by simp [henc]), henc]
      simp
    obtain ⟨hlt, rfl⟩ := List.getElem?_eq_some_iff.1 hd
    rw [hall _ (List.getElem_mem hlt)] at hclear
    cases hclear (by omega)
  · obtain ⟨b, hb, -⟩ := hcont r.bytes.length hlen
    rw [hread, List.getElem?_eq_none le_rfl] at hb
    cases hb
  · rw [decodeStep, hf, afterFetch]

/-- Settles O57: each stop by the fetch or the class that has no meaning there. -/
theorem modelStopsByName : Obligations.ModelStopsByName := by
  unfold Obligations.ModelStopsByName
  refine ⟨fun s ha hi => ?_, fun s p rest hb hsrc hh hrst hvalid hi => ?_, fun s i => exec_wrongIndex,
    fun s ha hi hl hr => ?_, fun s r rest hb hh hlen h8 hall => ?_⟩
  · rw [step_alone ha, byteStep_outOfRange hi]
  · rw [step_host (State.runsAlone_of_stream hsrc) hh]
    refine (edge_presented (s := s.setHost rest) hb hrst hvalid).trans ?_
    rw [State.setHost_idx, fetchedAt_outOfRange hi, afterFetch]
  · rw [step_alone ha, byteStep_notSupplied hi hl hr]
  · rw [step_decode hb hh, decodeStep_notSupplied hlen h8 hall]

end Sys2Proof.Machine

/-! Proofs about every step (41 sections 3 and 4, 20 section 3, 43 section 3): what a step did when it answers a next
state, what an instruction changes, and the serial schedule. -/

namespace Sys2Proof.Machine

-- ==== What a step did ====

/-- The ways in which a step leads from `s` to a next state. -/
inductive StepEffect (s : State) : State → Prop where
  /-- The running decode takes its buffer's outcome. -/
  | byteStep {o : Option Byte} (ha : s.runsAlone = true) (hi : s.idx.toNat ≤ 8)
      (ho : Presents s.toBuffer s.idx.toNat o) : StepEffect s (s.setBlock (s.toBlock.absorb o))
  /-- The host has no move. -/
  | waits (ha : s.runsAlone = false) (hh : s.host = []) : StepEffect s s
  /-- The transaction. -/
  | decodes {r : Request} {rest : List HostMove} {t : State} (hb : s.ph ≠ .busy) (hh : s.host = .decode r :: rest)
      (ht : decodeStep ((s.setHost rest).handOver r) = .next t) : StepEffect s t
  /-- `START` on a buffer. -/
  | starts {r : Request} {rest : List HostMove} (hb : s.ph ≠ .busy) (hh : s.host = .start r :: rest) :
      StepEffect s ((s.setHost rest).startedOn r)
  /-- A start that comes while a decode runs on the stream is taken and ignored. -/
  | ignores {m : HostMove} {rest : List HostMove} (ha : s.runsAlone = false) (hh : s.host = m :: rest)
      (hm : (∃ r, m = .decode r) ∨ ∃ r, m = .start r) : StepEffect s (s.setHost rest)
  /-- An edge with `rst`. -/
  | resets {p : Pins} {rest : List HostMove} (ha : s.runsAlone = false) (hh : s.host = .edge p :: rest)
      (hrst : p.rst = true) : StepEffect s (s.setHost rest).resetRegs
  /-- An edge with `start` outside `BUSY`. -/
  | startsStream {p : Pins} {rest : List HostMove} (hb : s.ph ≠ .busy) (hh : s.host = .edge p :: rest)
      (hstart : p.start = true) : StepEffect s ((s.setHost rest).startDecode .stream)
  /-- An edge with no event: a stall in `BUSY`, nothing outside. -/
  | stalls {p : Pins} {rest : List HostMove} (ha : s.runsAlone = false) (hh : s.host = .edge p :: rest)
      (hrst : p.rst = false) (hvalid : s.ph = .busy → p.inValid = false) : StepEffect s (s.setHost rest)
  /-- An edge that presents an outcome to the running decode. -/
  | takes {p : Pins} {rest : List HostMove} (hb : s.ph = .busy) (ha : s.runsAlone = false)
      (hh : s.host = .edge p :: rest) (hrst : p.rst = false) (hvalid : p.inValid = true) (hi : s.idx.toNat ≤ 8) :
      StepEffect s ((s.setHost rest).setBlock (s.toBlock.absorb (if p.inEnd then none else some p.inByte)))

/-- An edge that answers a next state had one of the effects of an edge. -/
theorem StepEffect.of_edge {s t : State} {p : Pins} {rest : List HostMove} (ha : s.runsAlone = false)
    (hh : s.host = .edge p :: rest) (h : edge p (s.setHost rest) = .next t) : StepEffect s t := by
  cases hrst : p.rst with
  | true =>
    rw [edge_rst hrst] at h
    cases h
    exact .resets ha hh hrst
  | false =>
    by_cases hb : (s.setHost rest).ph = .busy
    · cases hvalid : p.inValid with
      | false =>
        rw [edge_busy hb, hrst, hvalid] at h
        cases h
        exact .stalls ha hh hrst fun _ => hvalid
      | true =>
        rw [edge_presented hb hrst hvalid] at h
        have hi := idx_le_of_afterFetch_fetchedAt h
        rw [afterFetch_fetchedAt hb hi] at h
        cases h
        exact .takes hb ha hh hrst hvalid hi
    · cases hstart : p.start with
      | false =>
        rw [edge_waits hb hrst hstart] at h
        cases h
        exact .stalls ha hh hrst fun hbusy => absurd hbusy hb
      | true =>
        rw [edge_start hb hrst hstart] at h
        cases h
        exact .startsStream hb hh hstart

/-- A step that answers a next state had one of the effects. -/
theorem StepEffect.of_step {s t : State} (h : step s = .next t) : StepEffect s t := by
  rcases step_cases s with ⟨hb, hsrc, he⟩ | ⟨ha, hh, he⟩ | ⟨ha, m, rest, hh, he⟩ <;> rw [he] at h
  · obtain ⟨hi, o, ho, rfl⟩ := byteStep_next hb h
    exact .byteStep ((s.runsAlone_iff).2 ⟨hb, hsrc⟩) hi ho
  · cases h
    exact .waits ha hh
  · cases m with
    | edge p => exact .of_edge ha hh h
    | decode r =>
      by_cases hb : s.ph = .busy
      · cases (if_pos hb).symm.trans h
        exact .ignores ha hh (.inl ⟨r, rfl⟩)
      · exact .decodes hb hh ((if_neg hb).symm.trans h)
    | start r =>
      by_cases hb : s.ph = .busy
      · cases (if_pos hb).symm.trans h
        exact .ignores ha hh (.inr ⟨r, rfl⟩)
      · cases (if_neg hb).symm.trans h
        exact .starts hb hh

/-- The operation DECODE that answers a next state took outcomes of its buffer, or met the end of it. -/
theorem decodeStep_next {s t : State} (h : decodeStep s = .next t) :
    (∃ os : List (Option Byte), (∀ j (hj : j < os.length), Presents s.toBuffer j os[j]) ∧
      t = s.setBlock (Block.started.absorbAll os)) ∨
    (s.len ≤ 8 ∧ (∀ j < s.len, ContAt s.toBuffer j) ∧ t = s.setBlock Block.truncated) := by
  rw [decodeStep] at h
  rcases fetchVarint_cases s.toBuffer with ⟨i, hi, hpresents, hf⟩ | ⟨h8, hcont, hf⟩ | ⟨-, hf⟩ <;> rw [hf] at h
  · cases (exec_lengthForm_eq hi s).symm.trans h
    refine .inl ⟨(encode i).map some, fun j hj => ?_, rfl⟩
    have hj : j < (encode i).length := by simpa using hj
    simpa [List.getElem?_eq_getElem hj] using hpresents j hj
  · cases h
    exact .inr ⟨h8, hcont, rfl⟩
  · cases h

/-- The operation DECODE writes the block only. -/
theorem decodeStep_next_setBlock {s t : State} (h : decodeStep s = .next t) : ∃ b, t = s.setBlock b := by
  rcases decodeStep_next h with ⟨os, -, rfl⟩ | ⟨-, -, rfl⟩
  · exact ⟨_, rfl⟩
  · exact ⟨_, rfl⟩

-- ==== Outside `BUSY` (41 section 3) ====

/-- Outside `BUSY` a byte class changes nothing (log entry 7). -/
theorem exec_byteClass_not_busy {s : State} {i : Instr} (hb : s.ph ≠ .busy) (hi : i.isByteClass = true) :
    exec i s = .next s := by
  have unchanged : ∀ {legal ph acc}, s.lift (Block.byteClass legal ph acc s.toBlock) = .next s := by
    intro legal ph acc
    rw [Block.byteClass_not_busy hb]
    rfl
  cases i
  case cont => exact unchanged
  case term => exact unchanged
  case last => exact unchanged
  all_goals cases hi

/-- A step that changes a register outside `BUSY` is a start of a decode or a reset. -/
theorem StepEffect.registers_of_not_busy {s t : State} (hb : s.ph ≠ .busy) (h : StepEffect s t) :
    (t.ph, t.acc, t.idx) = (s.ph, s.acc, s.idx) ∨
    ∃ m rest, s.host = m :: rest ∧
      ((∃ r, m = .decode r) ∨ (∃ r, m = .start r) ∨ ∃ p, m = .edge p ∧ (p.rst = true ∨ p.start = true)) := by
  cases h with
  | byteStep ha => exact absurd ((s.runsAlone_iff).1 ha).1 hb
  | waits => exact .inl rfl
  | decodes _ hh => exact .inr ⟨_, _, hh, .inl ⟨_, rfl⟩⟩
  | starts _ hh => exact .inr ⟨_, _, hh, .inr (.inl ⟨_, rfl⟩)⟩
  | ignores => exact .inl rfl
  | resets _ hh hrst => exact .inr ⟨_, _, hh, .inr (.inr ⟨_, rfl, .inl hrst⟩)⟩
  | startsStream _ hh hstart => exact .inr ⟨_, _, hh, .inr (.inr ⟨_, rfl, .inr hstart⟩)⟩
  | stalls => exact .inl rfl
  | takes hbusy => exact absurd hbusy hb

/-- Settles O22, by the effects a step can have outside `BUSY`. -/
theorem endedDecodeStaysEnded : Obligations.EndedDecodeStaysEnded := by
  unfold Obligations.EndedDecodeStaysEnded
  refine ⟨fun s hb hh => ?_, fun s i => exec_byteClass_not_busy,
    fun s t hb h => (StepEffect.of_step h).registers_of_not_busy hb⟩
  rw [step, advance, State.runsAlone_of_not_busy hb, hh]
  rfl

-- ==== From `BUSY` (41 section 4) ====

/-- A byte at an index of 0 to 8 adds one to the index, and the decode runs on or has ended well. -/
theorem Block.absorb_some_advances {b : Block} (hi : b.idx.toNat ≤ 8) (d : Byte) :
    (b.absorb (some d)).idx.toNat = b.idx.toNat + 1 ∧ (b.absorb (some d)).idx.toNat ≤ 9 ∧
      ((b.absorb (some d)).ph = .busy ∨ (b.absorb (some d)).ph = .done) := by
  rcases Block.absorb_some_cases hi d [] with ⟨-, hph, hidx, -⟩ | ⟨hph, hidx, -⟩
  · exact ⟨hidx, by omega, .inl hph⟩
  · exact ⟨hidx, by omega, .inr hph⟩

/-- Settles O23: a byte advances the index, the end leads to `ERR`, and the other effects are those named. -/
theorem indexOnlyAdvancesByOne : Obligations.IndexOnlyAdvancesByOne := by
  unfold Obligations.IndexOnlyAdvancesByOne
  intro s t hb h
  cases StepEffect.of_step h with
  | @byteStep o ha hi ho =>
    cases o with
    | some d => exact .inl (Block.absorb_some_advances hi d)
    | none => exact .inr (.inr (.inl ⟨rfl, .inl ⟨ha, ho⟩⟩))
  | waits ha hh => exact .inr (.inl ⟨rfl, ha, .inl hh⟩)
  | decodes hn => exact absurd hb hn
  | starts hn => exact absurd hb hn
  | ignores ha hh hm => exact .inr (.inl ⟨rfl, ha, .inr ⟨_, _, hh, .inr hm⟩⟩)
  | resets ha hh hrst => exact .inr (.inr (.inr ⟨rfl, ha, _, _, hh, hrst⟩))
  | startsStream hn => exact absurd hb hn
  | stalls ha hh hrst hvalid => exact .inr (.inl ⟨rfl, ha, .inr ⟨_, _, hh, .inl ⟨_, rfl, hrst, hvalid hb⟩⟩⟩)
  | @takes p rest _ ha hh hrst hvalid hi =>
    cases hend : p.inEnd with
    | true => exact .inr (.inr (.inl ⟨rfl, .inr ⟨ha, p, rest, hh, hrst, hvalid, hend⟩⟩))
    | false => exact .inl (Block.absorb_some_advances hi p.inByte)

/-- Settles O50: the queue's start is dropped in `BUSY`, and an edge there looks at `in_valid` only. -/
theorem startWhileBusyIsIgnored : Obligations.StartWhileBusyIsIgnored := by
  unfold Obligations.StartWhileBusyIsIgnored
  refine ⟨fun s r rest hb hsrc hh => ?_, fun s p hb hrst hvalid => ?_⟩
  · have ha := State.runsAlone_of_stream hsrc
    rcases hh with hh | hh
    · exact (step_host ha hh).trans (if_pos hb)
    · exact (step_host ha hh).trans (if_pos hb)
  · rw [edge_busy hb, hrst, hvalid]
    rfl

-- ==== The frame (20 section 3, 40 section 3) ====

/-- In `BUSY` a byte class that completes advances the index by one (41 R103 to R105). -/
theorem exec_byteClass_idx {s t : State} {i : Instr} (hb : s.ph = .busy) (hi : i.isByteClass = true)
    (h : exec i s = .next t) : t.idx.toNat = s.idx.toNat + 1 := by
  have advanced : ∀ {legal ph acc}, (legal = true → s.idx.toNat ≤ 8) →
      s.lift (Block.byteClass legal ph acc s.toBlock) = .next t → t.idx.toNat = s.idx.toNat + 1 := by
    intro legal ph acc hlegal hl
    rcases lift_byteClass_next hl with ⟨hn, -⟩ | ⟨-, htrue, rfl⟩
    · exact absurd hb hn
    · exact idx_succ_toNat (hlegal htrue)
  cases i
  case cont => exact advanced (fun hl => Nat.le_of_lt (of_decide_eq_true hl)) h
  case term => exact advanced (fun hl => Nat.le_of_lt (of_decide_eq_true hl)) h
  case last => exact advanced (fun hl => Nat.le_of_eq (of_decide_eq_true hl)) h
  all_goals cases hi

/-- Settles O27: an instruction writes the block, a length form its end and a byte class one index on. -/
theorem instructionFrame : Obligations.InstructionFrame := by
  unfold Obligations.InstructionFrame
  intro i s t h
  have hform : i.isByteClass = false → t.ph = .done ∧ t.idx.toNat = i.size := by
    intro hi
    obtain ⟨acc, k, hk, -, hexec⟩ := lengthForm_ends hi
    cases (hexec s).symm.trans h
    exact ⟨rfl, hk⟩
  have hidle : i.isByteClass = true → s.ph ≠ .busy → t = s := fun hi hb =>
    Host.Outcome.next.inj (h.symm.trans (exec_byteClass_not_busy hb hi))
  have hbusy : i.isByteClass = true → s.ph = .busy → t.idx.toNat = s.idx.toNat + 1 := fun hi hb =>
    exec_byteClass_idx hb hi h
  obtain ⟨ph, acc, idx, rfl⟩ := exec_next h
  exact ⟨rfl, rfl, rfl, rfl, fun _ => rfl, fun _ => rfl, hform, hidle, hbusy⟩

/-- Settles O52: only the two moves that hand a buffer over write it. -/
theorem bufferIsNeverWritten : Obligations.BufferIsNeverWritten := by
  unfold Obligations.BufferIsNeverWritten
  intro s t h
  cases StepEffect.of_step h with
  | byteStep => exact .inl ⟨rfl, rfl⟩
  | waits => exact .inl ⟨rfl, rfl⟩
  | decodes hb hh ht =>
    obtain ⟨b, rfl⟩ := decodeStep_next_setBlock ht
    exact .inr ⟨hb, _, _, .inl hh, rfl, rfl⟩
  | starts hb hh => exact .inr ⟨hb, _, _, .inr hh, rfl, rfl⟩
  | ignores => exact .inl ⟨rfl, rfl⟩
  | resets => exact .inl ⟨rfl, rfl⟩
  | startsStream => exact .inl ⟨rfl, rfl⟩
  | stalls => exact .inl ⟨rfl, rfl⟩
  | takes => exact .inl ⟨rfl, rfl⟩

-- ==== The serial schedule (43 section 3) ====

/-- A decode that still runs after an outcome was at an index below 8 and is one index on. -/
theorem Block.absorb_busy {b : Block} (hi : b.idx.toNat ≤ 8) {o : Option Byte} (h : (b.absorb o).ph = .busy) :
    (b.absorb o).idx.toNat = b.idx.toNat + 1 ∧ (b.absorb o).idx.toNat ≤ 8 := by
  cases o with
  | none => cases h
  | some d =>
    rcases Block.absorb_some_cases hi d [] with ⟨hlt, -, hidx, -⟩ | ⟨hph, -, -⟩
    · exact ⟨hidx, by omega⟩
    · cases hph.symm.trans h

theorem presented_cons (p : Pins) (ps : List Pins) : presented (p :: ps) = presented [p] ++ presented ps := by
  rw [presented, presented, presented, ← List.filterMap_append]
  rfl

/-- An edge that neither resets nor starts absorbs what it presents. -/
theorem edge_absorbs {s : State} {p : Pins} (hrst : p.rst = false) (hstart : p.start = false)
    (hi : s.ph = .busy → s.idx.toNat ≤ 8) :
    edge p s = .next (s.setBlock (s.toBlock.absorbAll (presented [p]))) := by
  by_cases hb : s.ph = .busy
  · cases hvalid : p.inValid with
    | false =>
      have hnone : presented [p] = [] := by simp [presented, hvalid]
      rw [edge_busy hb, hrst, hvalid, hnone]
      rfl
    | true =>
      have hone : presented [p] = [if p.inEnd then none else some p.inByte] := by simp [presented, hvalid]
      rw [edge_presented hb hrst hvalid, afterFetch_fetchedAt hb (hi hb), hone, Block.absorbAll_cons hb]
      rfl
  · rw [edge_waits hb hrst hstart, Block.absorbAll_not_busy hb]
    rfl

/-- A decode that still runs after any outcomes is at an index of 0 to 8. -/
theorem Block.absorbAll_idx_le {b : Block} (hi : b.ph = .busy → b.idx.toNat ≤ 8) (os : List (Option Byte)) :
    (b.absorbAll os).ph = .busy → (b.absorbAll os).idx.toNat ≤ 8 := by
  induction os generalizing b with
  | nil => exact hi
  | cons o os ih =>
    by_cases hb : b.ph = .busy
    · rw [Block.absorbAll_cons hb]
      exact ih fun h => (Block.absorb_busy (hi hb) h).2
    · rw [Block.absorbAll_not_busy hb]
      exact hi

/-- A schedule of edges that neither reset nor start absorbs what it presents. -/
theorem run_edges {ps : List Pins} (hps : ∀ q ∈ ps, q.rst = false ∧ q.start = false) {s : State}
    {rest : List HostMove} (hsrc : s.src = .stream) (hi : s.ph = .busy → s.idx.toNat ≤ 8)
    (hh : s.host = ps.map .edge ++ rest) :
    run ps.length s = .next ((s.setHost rest).setBlock (s.toBlock.absorbAll (presented ps))) := by
  induction ps generalizing s with
  | nil =>
    rw [List.map_nil, List.nil_append] at hh
    rw [← hh]
    rfl
  | cons p ps ih =>
    obtain ⟨⟨hrst, hstart⟩, hps⟩ := List.forall_mem_cons.1 hps
    have hstep := (step_host (State.runsAlone_of_stream hsrc) hh).trans (edge_absorbs hrst hstart hi)
    have hlater := ih (s := (s.setHost (ps.map .edge ++ rest)).setBlock (s.toBlock.absorbAll (presented [p]))) hps hsrc
      (Block.absorbAll_idx_le hi _) rfl
    rw [presented_cons, Block.absorbAll_append]
    exact (run_succ hstep ps.length).trans hlater

/-- Settles O46: the schedule presents at least as many of the buffer's outcomes as the decode takes. -/
theorem serialScheduleComputesDecode : Obligations.SerialScheduleComputesDecode := by
  unfold Obligations.SerialScheduleComputesDecode
  intro s p ps rest buf hb hrst hstart hps hpre hcount hh
  have hstep := (step_host (State.runsAlone_of_not_busy hb) hh).trans (edge_start hb hrst hstart)
  have hend : Block.started.absorbAll (presented ps) = endOf buf := by
    rw [List.prefix_iff_eq_take.1 hpre]
    exact started_absorbAll_take_ge hcount
  have hrun := (run_succ hstep ps.length).trans (run_edges hps rfl (fun _ => Nat.zero_le 8) rfl)
  refine ⟨_, hrun, ?_⟩
  obtain ⟨hresult, hph⟩ := Block.Shows.result
    (s := ((s.setHost rest).startDecode .stream).setBlock (Block.started.absorbAll (presented ps)))
    (hend ▸ endOf_shows buf)
  exact ⟨hresult, rfl, hph.imp (State.doneFlag_eq_true _).2 fun h => (State.errFlag_eq_true _).2 h.1⟩

end Sys2Proof.Machine

/-! Proofs about the invariant (10 section 5) and the truthful host (43 R142): each fetch outcome keeps the invariant,
so every step does, and with a truthful host there always is a next step. -/

namespace Sys2Proof.Machine

-- ==== The invariant by the phase (10 R30) ====

section
variable {s : State}

theorem regsInv_busy_iff (h : s.ph = .busy) :
    RegsInv s ↔ s.idx.toNat ≤ 8 ∧ s.acc.toNat < 2 ^ (7 * s.idx.toNat) := by
  simp only [RegsInv, h]

theorem regsInv_done_iff (h : s.ph = .done) :
    RegsInv s ↔ 1 ≤ s.idx.toNat ∧ s.idx.toNat ≤ 9 ∧ (s.idx.toNat ≤ 8 → s.acc.toNat < 2 ^ (7 * s.idx.toNat)) := by
  simp only [RegsInv, h]

theorem bufferInv_busy_iff (h : s.ph = .busy) :
    BufferInv s ↔ s.idx.toNat ≤ s.len ∧ (∀ i < s.idx.toNat, ContAt s.toBuffer i) ∧
      s.acc.toNat = payloadSum s.toBuffer s.idx.toNat := by
  simp only [BufferInv, h]

theorem bufferInv_done_iff (h : s.ph = .done) :
    BufferInv s ↔ s.idx.toNat ≤ s.len ∧ (∀ i < s.idx.toNat - 1, ContAt s.toBuffer i) ∧
      (s.idx.toNat ≤ 8 →
        TermAt s.toBuffer (s.idx.toNat - 1) ∧ s.acc.toNat = payloadSum s.toBuffer s.idx.toNat) := by
  simp only [BufferInv, h]

end

/-- A running decode that meets the invariant is at an index of 0 to 8. -/
theorem RegsInv.idx_le {s : State} (h : RegsInv s) (hb : s.ph = .busy) : s.idx.toNat ≤ 8 :=
  ((regsInv_busy_iff hb).1 h).1

-- ==== One fetch outcome keeps it ====

/-- A fetch outcome keeps the invariant of the registers. -/
theorem RegsInv.absorb {s : State} (h : RegsInv s) (hb : s.ph = .busy) (o : Option Byte) :
    RegsInv (s.setBlock (s.toBlock.absorb o)) := by
  obtain ⟨h8, hacc⟩ := (regsInv_busy_iff hb).1 h
  have hidx := idx_succ_toNat h8
  cases o with
  | none => exact ⟨rfl, rfl⟩
  | some d =>
    rcases Nat.lt_or_eq_of_le h8 with hlt | heq
    · have hpush := pushLead_lt (Nat.le_of_lt_succ hlt) hacc (payload d)
      rw [← hidx] at hpush
      cases hd : contBit d
      · rw [Block.absorb_term hlt hd]
        exact (regsInv_done_iff rfl).2
          ⟨hidx.ge.trans' (Nat.le_add_left 1 _), hidx.trans_le (Nat.succ_le_succ h8), fun _ => hpush⟩
      · rw [Block.absorb_cont hlt hd]
        exact (regsInv_busy_iff rfl).2 ⟨hidx.trans_le hlt, hpush⟩
    · rw [Block.absorb_last heq]
      have h9 : (s.idx + 1).toNat = 9 := hidx.trans (by rw [heq])
      exact (regsInv_done_iff rfl).2 ⟨h9.ge.trans' (by decide), h9.le, fun hle => absurd (h9 ▸ hle) (by decide)⟩

/-- The payload of the next byte extends the sum of the payloads. -/
theorem pushLead_eq_payloadSum {buf : Buffer} {n : Nat} {acc : Acc} {d : Byte} (hlt : acc.toNat < 2 ^ 56)
    (hacc : acc.toNat = payloadSum buf n) (hd : Memory.read buf.mem n = some d) :
    (pushLead acc (payload d)).toNat = payloadSum buf (n + 1) := by
  rw [pushLead_toNat hlt, payloadSum_succ, ← hacc, byteAt, hd]
  rfl

/-- The buffer's own outcome keeps the invariant of the buffer. -/
theorem BufferInv.absorb {s : State} (hr : RegsInv s) (h : BufferInv s) (hb : s.ph = .busy) {o : Option Byte}
    (ho : Presents s.toBuffer s.idx.toNat o) : BufferInv (s.setBlock (s.toBlock.absorb o)) := by
  obtain ⟨h8, hlt56⟩ := (regsInv_busy_iff hb).1 hr
  obtain ⟨hlen, hcont, hacc⟩ := (bufferInv_busy_iff hb).1 h
  have hidx := idx_succ_toNat h8
  cases o with
  | none =>
    have heq : s.idx.toNat = s.len := le_antisymm hlen ho
    exact ⟨heq ▸ h8, fun i hi => hcont i (heq ▸ hi)⟩
  | some d =>
    obtain ⟨hlt, hread⟩ := ho
    have hlen' : (s.idx + 1).toNat ≤ s.len := hidx.trans_le hlt
    have hpush := pushLead_eq_payloadSum (hlt56.trans_le (lead_bound_le h8)) hacc hread
    have hprev : (s.idx + 1).toNat - 1 = s.idx.toNat := by rw [hidx, Nat.add_sub_cancel]
    have hbefore : ∀ i < (s.idx + 1).toNat - 1, ContAt s.toBuffer i := by rwa [hprev]
    rw [← hidx] at hpush
    rcases Nat.lt_or_eq_of_le h8 with hlt8 | heq
    · cases hd : contBit d
      · rw [Block.absorb_term hlt8 hd]
        exact (bufferInv_done_iff rfl).2 ⟨hlen', hbefore, fun _ => ⟨hprev.symm ▸ ⟨d, hread, hd⟩, hpush⟩⟩
      · rw [Block.absorb_cont hlt8 hd]
        refine (bufferInv_busy_iff rfl).2 ⟨hlen', fun i hi => ?_, hpush⟩
        rcases Nat.lt_or_eq_of_le (Nat.le_of_lt_succ (hi.trans_eq hidx)) with hi | rfl
        · exact hcont i hi
        · exact ⟨d, hread, hd⟩
    · rw [Block.absorb_last heq]
      have h9 : (s.idx + 1).toNat = 9 := hidx.trans (by rw [heq])
      exact (bufferInv_done_iff rfl).2 ⟨hlen', hbefore, fun hle => absurd (h9 ▸ hle) (by decide)⟩

-- ==== Whole decodes keep it ====

/-- The buffer's outcomes from the index on keep the invariant. -/
theorem inv_absorbAll {os : List (Option Byte)} {s : State} (hr : RegsInv s) (h : BufferInv s)
    (hos : ∀ j (hj : j < os.length), Presents s.toBuffer (s.idx.toNat + j) os[j]) :
    RegsInv (s.setBlock (s.toBlock.absorbAll os)) ∧ BufferInv (s.setBlock (s.toBlock.absorbAll os)) := by
  induction os generalizing s with
  | nil => exact ⟨hr, h⟩
  | cons o os ih =>
    by_cases hb : s.ph = .busy
    · rw [Block.absorbAll_cons hb]
      have ho : Presents s.toBuffer s.idx.toNat o := hos 0 (Nat.succ_pos _)
      by_cases hbusy : (s.toBlock.absorb o).ph = .busy
      · refine ih (hr.absorb hb o) (h.absorb hr hb ho) fun j hj => ?_
        have hnext := hos (j + 1) (Nat.succ_lt_succ hj)
        rw [State.setBlock_toBlock, (Block.absorb_busy (hr.idx_le hb) hbusy).1, Nat.add_right_comm]
        exact hnext
      · rw [Block.absorbAll_not_busy hbusy]
        exact ⟨hr.absorb hb o, h.absorb hr hb ho⟩
    · rw [Block.absorbAll_not_busy hb]
      exact ⟨hr, h⟩

/-- A decode just started meets the invariant. -/
theorem inv_startDecode (s : State) (src : Source) :
    RegsInv (s.startDecode src) ∧ BufferInv (s.startDecode src) :=
  ⟨(regsInv_busy_iff rfl).2 (by simp),
    (bufferInv_busy_iff rfl).2 ⟨Nat.zero_le _, fun i hi => absurd hi (Nat.not_lt_zero i), rfl⟩⟩

/-- The operation DECODE on a buffer in canonical form leads to a state that meets the invariant. -/
theorem stateInv_decodeStep {s t : State} (hm : Memory.wf s.mem = true) (h : decodeStep s = .next t) : StateInv t := by
  rcases decodeStep_next h with ⟨os, hos, rfl⟩ | ⟨h8, hcont, rfl⟩
  · obtain ⟨hr, hb⟩ := inv_startDecode s .buffer
    have hos' : ∀ j (hj : j < os.length), Presents (s.startDecode .buffer).toBuffer
        ((s.startDecode .buffer).idx.toNat + j) os[j] := by
      intro j hj
      rw [State.startDecode_idx, show (0 : Index).toNat = 0 from rfl, Nat.zero_add]
      exact hos j hj
    obtain ⟨hregs, hbuf⟩ := inv_absorbAll hr hb hos'
    exact ⟨hm, hregs, fun _ => hbuf⟩
  · exact ⟨hm, ⟨rfl, rfl⟩, fun _ => ⟨h8, hcont⟩⟩

/-- Every effect of a step keeps the invariant. -/
theorem StepEffect.stateInv {s t : State} (hs : StateInv s) (h : StepEffect s t) : StateInv t := by
  obtain ⟨hm, hr, hbuf⟩ := hs
  cases h with
  | @byteStep o ha hi ho =>
    obtain ⟨hb, hsrc⟩ := (s.runsAlone_iff).1 ha
    exact ⟨hm, hr.absorb hb o, fun _ => (hbuf hsrc).absorb hr hb ho⟩
  | waits => exact ⟨hm, hr, hbuf⟩
  | decodes _ _ ht => exact stateInv_decodeStep (Memory.wf_ofBytes _) ht
  | @starts r rest =>
    obtain ⟨hregs, hb⟩ := inv_startDecode ((s.setHost rest).handOver r) .buffer
    exact ⟨Memory.wf_ofBytes _, hregs, fun _ => hb⟩
  | ignores => exact ⟨hm, hr, hbuf⟩
  | resets => exact ⟨hm, ⟨rfl, rfl⟩, fun _ => trivial⟩
  | @startsStream p rest => exact ⟨hm, (inv_startDecode (s.setHost rest) .stream).1, fun hsrc => by cases hsrc⟩
  | stalls => exact ⟨hm, hr, hbuf⟩
  | takes hb ha =>
    refine ⟨hm, RegsInv.absorb hr hb _, fun hsrc => ?_⟩
    rw [(State.runsAlone_iff s).2 ⟨hb, hsrc⟩] at ha
    cases ha

/-- Settles O54, by the effects a step can have. -/
theorem stepKeepsInvariant : Obligations.StepKeepsInvariant := by
  unfold Obligations.StepKeepsInvariant
  exact fun s t hs h => (StepEffect.of_step h).stateInv hs

/-- Settles O53: the reset state is `(IDLE, 0, 0)` with an empty memory. -/
theorem resetMeetsInvariant : Obligations.ResetMeetsInvariant := by
  unfold Obligations.ResetMeetsInvariant
  exact ⟨Memory.wf_reset, ⟨rfl, rfl⟩, fun _ => trivial⟩

-- ==== Bit 63 (10 section 5) ====

/-- Below `2^56` bit 63 is clear. -/
theorem topBit_eq_false {acc : Acc} (h : acc.toNat < 2 ^ 56) : acc.getLsbD 63 = false :=
  Nat.testBit_eq_false_of_lt (h.trans (by decide))

/-- Settles O55: outside `DONE` and with a count up to 8 the invariant keeps the accumulator below `2^56`. -/
theorem topBitOnlyAfterNineBytes : Obligations.TopBitOnlyAfterNineBytes := by
  unfold Obligations.TopBitOnlyAfterNineBytes
  intro s hs htop
  obtain ⟨-, hr, -⟩ := hs
  have hlarge : ¬ s.acc.toNat < 2 ^ 56 := fun h => by
    rw [topBit_eq_false h] at htop
    cases htop
  cases hph : s.ph with
  | idle =>
    rw [RegsInv, hph] at hr
    exact absurd (by rw [hr.1]; decide) hlarge
  | err =>
    rw [RegsInv, hph] at hr
    exact absurd (by rw [hr.1]; decide) hlarge
  | busy =>
    obtain ⟨h8, hacc⟩ := (regsInv_busy_iff hph).1 hr
    exact absurd (hacc.trans_le (lead_bound_le h8)) hlarge
  | done =>
    obtain ⟨-, h9, hacc⟩ := (regsInv_done_iff hph).1 hr
    refine ⟨rfl, BitVec.eq_of_toNat_eq ?_⟩
    have h8 : ¬ s.idx.toNat ≤ 8 := fun h8 => hlarge ((hacc h8).trans_le (lead_bound_le h8))
    have hnine : s.idx.toNat = 9 := by omega
    exact hnine

-- ==== A truthful host (43 R142) ====

/-- Where the host supplied the whole buffer, every index has an outcome. -/
theorem exists_presents {buf : Buffer} (h : ∀ i < buf.len, ∃ b, Memory.read buf.mem i = some b) (i : Nat) :
    ∃ o, Presents buf i o := by
  rcases Nat.lt_or_ge i buf.len with hi | hi
  · obtain ⟨b, hb⟩ := h i hi
    exact ⟨some b, hi, hb⟩
  · exact ⟨none, hi⟩

/-- A buffer handed over truthfully is supplied whole. -/
theorem supplied_handOver {r : Request} (hr : r.truthful) (i : Nat) (hi : i < r.len) :
    ∃ b, Memory.read (Memory.ofBytes r.bytes) i = some b :=
  ⟨_, (Memory.read_ofBytes _ _).trans (List.getElem?_eq_getElem (Nat.lt_of_lt_of_le hi hr))⟩

/-- With a truthful host a move of it leads to a next state. -/
theorem exists_next_hostMove {s : State} (hr : RegsInv s) {m : HostMove} (hm : m.truthful) :
    ∃ t, hostMove m s = .next t := by
  cases m with
  | decode r =>
    by_cases hb : s.ph = .busy
    · exact ⟨_, if_pos hb⟩
    · exact ⟨_, (if_neg hb).trans (decodeStep_handOver hm s)⟩
  | start r =>
    by_cases hb : s.ph = .busy
    · exact ⟨_, if_pos hb⟩
    · exact ⟨_, if_neg hb⟩
  | edge p =>
    cases hrst : p.rst with
    | true => exact ⟨_, edge_rst hrst s⟩
    | false =>
      by_cases hb : s.ph = .busy
      · cases hvalid : p.inValid with
        | false => exact ⟨s, by rw [hostMove, edge_busy hb, hrst, hvalid]; rfl⟩
        | true => exact ⟨_, (edge_presented hb hrst hvalid).trans (afterFetch_fetchedAt hb (hr.idx_le hb) _)⟩
      · exact ⟨_, edge_not_busy hb⟩

/-- With a truthful host a state that meets the invariant has a next state. -/
theorem exists_next {s : State} (hs : StateInv s) (ht : s.truthful) : ∃ t, step s = .next t := by
  obtain ⟨-, hr, -⟩ := hs
  obtain ⟨hsupplied, hmoves⟩ := ht
  rcases step_cases s with ⟨hb, hsrc, he⟩ | ⟨-, -, he⟩ | ⟨-, m, rest, hh, he⟩
  · obtain ⟨o, ho⟩ := exists_presents (hsupplied hb hsrc) s.idx.toNat
    exact ⟨_, he.trans (byteStep_of_presents hb (hr.idx_le hb) ho)⟩
  · exact ⟨_, he⟩
  · obtain ⟨t, ht⟩ := exists_next_hostMove (s := s.setHost rest) hr (hmoves m (by simp [hh]))
    exact ⟨t, he.trans ht⟩

/-- Every effect of a step leaves a truthful host truthful. -/
theorem StepEffect.truthful {s t : State} (hs : s.truthful) (h : StepEffect s t) : t.truthful := by
  obtain ⟨hsupplied, hmoves⟩ := hs
  have later : ∀ {m rest}, s.host = m :: rest → m.truthful ∧ ∀ m ∈ rest, m.truthful := fun hh =>
    List.forall_mem_cons.1 (hh ▸ hmoves)
  cases h with
  | byteStep ha =>
    obtain ⟨hb, hsrc⟩ := (s.runsAlone_iff).1 ha
    exact ⟨fun _ _ => hsupplied hb hsrc, hmoves⟩
  | waits => exact ⟨hsupplied, hmoves⟩
  | decodes _ hh ht =>
    obtain ⟨b, rfl⟩ := decodeStep_next_setBlock ht
    exact ⟨fun _ _ => supplied_handOver (later hh).1, (later hh).2⟩
  | starts _ hh => exact ⟨fun _ _ => supplied_handOver (later hh).1, (later hh).2⟩
  | ignores _ hh => exact ⟨hsupplied, (later hh).2⟩
  | resets _ hh => exact ⟨fun hb => (by cases hb), (later hh).2⟩
  | startsStream _ hh => exact ⟨fun _ hsrc => (by cases hsrc), (later hh).2⟩
  | stalls _ hh => exact ⟨hsupplied, (later hh).2⟩
  | takes hb _ hh => exact ⟨fun _ hsrc => hsupplied hb hsrc, (later hh).2⟩

/-- Settles O56: there is a next state, and every effect keeps the invariant and the host's duty. -/
theorem truthfulHostIsNeverStopped : Obligations.TruthfulHostIsNeverStopped := by
  unfold Obligations.TruthfulHostIsNeverStopped
  intro s hs ht
  obtain ⟨t, hstep⟩ := exists_next hs ht
  exact ⟨t, hstep, (StepEffect.of_step hstep).stateInv hs, (StepEffect.of_step hstep).truthful ht⟩

end Sys2Proof.Machine
